-- ==== Sys2Proof/Config.lean ====
section
/-! DEFINITION. The implementation parameters of the Huffman tree walker (spec/00_scope.md rule R6), the widths
derived from them, and the one free value of the model: what NODE holds at an index no LOAD has written. -/

namespace Sys2Proof

/-- The two parameters of an instance, fixed for its life (rule R6). They are not state (rule R20). -/
structure Params where
  /-- SYM_W, the width of a symbol in bits. -/
  symW : Nat
  /-- IDX_W, the width of a node index in bits; NODE has exactly `2 ^ idxW` words. -/
  idxW : Nat
deriving DecidableEq, Repr

/-- The default parameters SYM_W = 8, IDX_W = 9 (rule R6), those of spec/opcode_table.json. The fixed names
(`exec`, `step`, `State.reset`, `core`) are the machine at this pair; every definition they call is written for
any pair. -/
abbrev Params.defaults : Params := ⟨8, 9⟩

/-- P = NODE_W - 2 = max(2 * IDX_W, SYM_W), the width of a node word's payload (rule R81). -/
abbrev Params.payloadW (p : Params) : Nat := max (2 * p.idxW) p.symW

/-- NODE_W = 2 + max(2 * IDX_W, SYM_W), the width of a node word (rule R6). -/
abbrev Params.nodeW (p : Params) : Nat := 2 + p.payloadW

/-- CMD_W = 2 + IDX_W + NODE_W, the width of a command word (rule R6). -/
abbrev Params.cmdW (p : Params) : Nat := 2 + p.idxW + p.nodeW

/-- FREE VALUE. The power-up contents of NODE: the word held at an index that no LOAD has written. Rule R33 says
each such word holds some NODE_W-bit value that no rule fixes; spec/93_implementation_defined.md U1 allows a model
to take the initial contents as an arbitrary function from index to word, "the exact hardware behaviour". The
constant has no body, so nothing can be proved of its values (assumption log 1). -/
opaque Config.powerUpNode : (p : Params) → BitVec p.idxW → BitVec p.nodeW

end Sys2Proof
end

