-- ==== Sys2Proof/Word.lean ====
section
/-! DEFINITION. The word types of the block (rules R6, R10): every value is an unsigned bit vector, and the block
performs no arithmetic on any of them (rule R150). -/

namespace Sys2Proof

/-- A node index of IDX_W bits (rule R51). -/
abbrev Index (p : Params := .defaults) : Type := BitVec p.idxW

/-- A node word of NODE_W bits, format N (rule R81). -/
abbrev NodeWord (p : Params := .defaults) : Type := BitVec p.nodeW

/-- A symbol of SYM_W bits (rule R13). -/
abbrev Symbol (p : Params := .defaults) : Type := BitVec p.symW

/-- A command word of CMD_W bits, format C (rule R87). -/
abbrev CmdWord (p : Params := .defaults) : Type := BitVec p.cmdW

end Sys2Proof
end

