-- ==== Sys2Proof/Syntax.lean ====
section
/-! DEFINITION. The instructions: four host commands (format C, rule R89) and four node kinds that the walker
executes when it visits a node (format N, rule R82). One constructor per row of spec/opcode_table.json. -/

namespace Sys2Proof

/-- The kind of a node word (rule R82). -/
inductive Kind where
  /-- 0b00: no node here. -/
  | empty
  /-- 0b01: an Internal node with two child fields. -/
  | int
  /-- 0b10: a Leaf holding a symbol. -/
  | leaf
  /-- 0b11: reserved. -/
  | rsvd3
deriving DecidableEq, Repr

/-- The op field of a command word (rule R89). -/
inductive Op where
  | nop
  | load
  | start
  | clear
deriving DecidableEq, Repr

/-- The two encoded formats that carry an opcode (rule R80). The third format, the bit token, is one `Bool`. -/
inductive Format where
  /-- Format C, CMD_W bits, decoded by the command port. -/
  | command
  /-- Format N, NODE_W bits, decoded by the walker. -/
  | node
deriving DecidableEq, Repr

/-- An instruction with the operands its rule reads. The bits a format ignores (rules R86 and R90) are no operand:
the decoder drops them and the encoder writes 0, as rule R95 assembles them. -/
inductive Instr (p : Params := .defaults) where
  /-- NOP (rule R123). -/
  | nop
  /-- LOAD addr, data (rule R124). -/
  | load (addr : Index p) (data : NodeWord p)
  /-- START (rule R125). -/
  | start
  /-- CLEAR (rule R126). -/
  | clear
  /-- A node word of kind EMPTY (rule R143). -/
  | empty
  /-- A node word of kind INT, with its two child indices (rule R141); index 0 means absent (rule R58). -/
  | int (left right : Index p)
  /-- A node word of kind LEAF, with its symbol (rule R142). -/
  | leaf (sym : Symbol p)
  /-- A node word of the reserved kind (rule R144). -/
  | rsvd3
deriving DecidableEq, Repr

/-- The format an instruction is encoded in. -/
def Instr.format {p : Params} : Instr p → Format
  | .nop => .command
  | .load _ _ => .command
  | .start => .command
  | .clear => .command
  | .empty => .node
  | .int _ _ => .node
  | .leaf _ => .node
  | .rsvd3 => .node

/-- The two-bit opcode of an instruction: op of a command (rule R89), kind of a node word (rule R82). -/
def Instr.opcode {p : Params} : Instr p → BitVec 2
  | .nop => 0b00
  | .load _ _ => 0b01
  | .start => 0b10
  | .clear => 0b11
  | .empty => 0b00
  | .int _ _ => 0b01
  | .leaf _ => 0b10
  | .rsvd3 => 0b11

/-- An encoded word of one of the two formats. -/
inductive Encoded (p : Params) where
  | command (c : CmdWord p)
  | node (w : NodeWord p)
deriving DecidableEq, Repr

end Sys2Proof
end

