-- ==== Sys2Proof/WellFormed.lean ====
section
/-! DEFINITION. What must be checked because a type does not already say it: the legality of a parameter pair
(rule R6), and that a raw number fits the format it is read as (rule R80). An `Instr` is well-formed by its type:
each operand has exactly its field's width, every value of every field is legal (rule R93), and no command word is
illegal. -/

namespace Sys2Proof

/-- SYM_W >= 1 and IDX_W >= 1 (rule R6). -/
def Params.wf (p : Params) : Bool := decide (1 ≤ p.symW) && decide (1 ≤ p.idxW)

/-- The width of a word of a format (rule R80). -/
def Format.width (p : Params) : Format → Nat
  | .command => p.cmdW
  | .node => p.nodeW

/-- A raw number is a word of a format when it has no bit above the format's width. -/
def Format.fits (p : Params) (f : Format) (w : Nat) : Bool := decide (w < 2 ^ f.width p)

end Sys2Proof
end

