-- ==== Sys2Proof/Decode.lean ====
section
/-! DEFINITION. The fields of the node word and the command word, the two decoders, which are total (rule R93), the
encoder, and the reading of a raw number as a word of a format. Every field is a contiguous run of bits read as an
unsigned integer (rule R92). -/

namespace Sys2Proof

/-! ### The node word, format N -/

/-- The two kind bits of a node word, `w[NODE_W-1 : NODE_W-2]` (rule R82). -/
def kindBits {p : Params} (w : NodeWord p) : BitVec 2 := w.extractLsb' p.payloadW 2

/-- The values of the kind field (rule R82). -/
def kindOfBits (b : BitVec 2) : Kind :=
  if b = 0b00 then .empty else if b = 0b01 then .int else if b = 0b10 then .leaf else .rsvd3

/-- `kind(w)` (rule R82). -/
def kind {p : Params} (w : NodeWord p) : Kind := kindOfBits (kindBits w)

/-- `left(w) = w[2*IDX_W-1 : IDX_W]` (rule R83). -/
def left {p : Params} (w : NodeWord p) : Index p := w.extractLsb' p.idxW p.idxW

/-- `right(w) = w[IDX_W-1 : 0]` (rule R84). -/
def right {p : Params} (w : NodeWord p) : Index p := w.extractLsb' 0 p.idxW

/-- `sym(w) = w[SYM_W-1 : 0]` (rule R85). -/
def sym {p : Params} (w : NodeWord p) : Symbol p := w.extractLsb' 0 p.symW

/-- The instruction a node word stands for; its ignored bits are dropped (rule R86). -/
def decodeNode {p : Params} (w : NodeWord p) : Instr p :=
  match kind w with
  | .empty => .empty
  | .int => .int (left w) (right w)
  | .leaf => .leaf (sym w)
  | .rsvd3 => .rsvd3

/-! ### The command word, format C -/

/-- The two op bits of a command word, `c[CMD_W-1 : CMD_W-2]` (rule R88). -/
def opBits {p : Params} (c : CmdWord p) : BitVec 2 := c.extractLsb' (p.idxW + p.nodeW) 2

/-- The values of the op field (rule R89). -/
def opOfBits (b : BitVec 2) : Op :=
  if b = 0b00 then .nop else if b = 0b01 then .load else if b = 0b10 then .start else .clear

/-- `op(c)` (rules R88 and R89). -/
def op {p : Params} (c : CmdWord p) : Op := opOfBits (opBits c)

/-- `addr(c) = c[CMD_W-3 : NODE_W]` (rule R88). -/
def addr {p : Params} (c : CmdWord p) : Index p := c.extractLsb' p.nodeW p.idxW

/-- `data(c) = c[NODE_W-1 : 0]` (rule R88). -/
def data {p : Params} (c : CmdWord p) : NodeWord p := c.extractLsb' 0 p.nodeW

/-- The command a command word stands for; addr and data are used by LOAD only (rule R90). -/
def decodeCommand {p : Params} (c : CmdWord p) : Instr p :=
  match op c with
  | .nop => .nop
  | .load => .load (addr c) (data c)
  | .start => .start
  | .clear => .clear

/-- The decoder of both formats. -/
def decode {p : Params} : Encoded p → Instr p
  | .command c => decodeCommand c
  | .node w => decodeNode w

/-! ### The encoder -/

/-- A node word from its two kind bits and its payload (rule R81). -/
def packNode {p : Params} (k : BitVec 2) (payload : BitVec p.payloadW) : NodeWord p := k ++ payload

/-- The payload of an INT word: left index, then right index; any bits above them are 0 (rules R83, R84, R86). -/
def childPayload {p : Params} (l r : Index p) : BitVec p.payloadW :=
  (l.setWidth p.payloadW <<< p.idxW) ||| r.setWidth p.payloadW

/-- A command word from its op, addr and data fields (rule R87). -/
def packCommand {p : Params} (o : BitVec 2) (a : Index p) (d : NodeWord p) : CmdWord p := (o ++ a) ++ d

/-- The word of an instruction, with every ignored bit 0 (rules R81, R87 and R95). -/
def encode {p : Params} : Instr p → Encoded p
  | .nop => .command (packCommand 0b00 0 0)
  | .load a d => .command (packCommand 0b01 a d)
  | .start => .command (packCommand 0b10 0 0)
  | .clear => .command (packCommand 0b11 0 0)
  | .empty => .node (packNode 0b00 0)
  | .int l r => .node (packNode 0b01 (childPayload l r))
  | .leaf s => .node (packNode 0b10 (s.setWidth p.payloadW))
  | .rsvd3 => .node (packNode 0b11 0)

/-! ### Raw numbers -/

/-- Why a raw number is no word of a format. -/
inductive DecodeError where
  /-- The number has a bit above CMD_W - 1, so it is no command word. -/
  | notACommandWord
  /-- The number has a bit above NODE_W - 1, so it is no node word. -/
  | notANodeWord
deriving DecidableEq, Repr

/-- Read a raw number as a word of a format and decode it. The only rejection is a number wider than the format:
within its width every value of every format is defined (rule R93). -/
def decodeRaw (p : Params) (f : Format) (w : Nat) : Except DecodeError (Instr p) :=
  match f with
  | .command =>
    if Format.fits p .command w then .ok (decodeCommand (BitVec.ofNat p.cmdW w)) else .error .notACommandWord
  | .node =>
    if Format.fits p .node w then .ok (decodeNode (BitVec.ofNat p.nodeW w)) else .error .notANodeWord

/-- The format of an opcode-table row, from the number of bits the table gives it: a node word is 20 bits (three
bytes), a command word 31 bits (four bytes) at the default parameters. -/
def tableFormat (nbits : Nat) : Format := if nbits ≤ 24 then .node else .command

/-- The instruction the decoder reads from a row's bits `w`. Neither format has a byte order (rule R52): a word is
one number whose bit 0 is its least significant bit. -/
def decodeTableWord (nbits w : Nat) : Option Instr :=
  match decodeRaw .defaults (tableFormat nbits) w with
  | .ok i => some i
  | .error _ => none

end Sys2Proof
end

