-- ==== Sys2Proof/Machine/State.lean ====
section
/-! DEFINITION. The state of the block (rule R20: three registers and the node memory, nothing else), the input
ports its environment drives (rule R28), and the record of the transfers made (rule R28), all as plain data. -/

namespace Sys2Proof.Machine

/-- ST, the control state (rule R21). -/
inductive Ctl where
  /-- 0b00: no run in progress and no result held. -/
  | idle
  /-- 0b01: a run is in progress. -/
  | run
  /-- 0b10: the last run ended without a fault. -/
  | done
  /-- 0b11: the last run ended with a fault. -/
  | fault
deriving DecidableEq, Repr

/-- The two bits of ST, as `st_o` shows them (rule R21). -/
def Ctl.bits : Ctl → BitVec 2
  | .idle => 0b00
  | .run => 0b01
  | .done => 0b10
  | .fault => 0b11

/-- CODE, the status code (rule R22). The reserved values 6 and 7 have no constructor
(spec/93_implementation_defined.md U8). -/
inductive Code where
  | ok
  | emptyInput
  | decodeTruncated
  | decodeNoChild
  | degenerateTree
  | badNode
deriving DecidableEq, Repr

/-- The three bits of CODE, as `code_o` shows them (rule R22). -/
def Code.bits : Code → BitVec 3
  | .ok => 0
  | .emptyInput => 1
  | .decodeTruncated => 2
  | .decodeNoChild => 3
  | .degenerateTree => 4
  | .badNode => 5

/-- NODE (rule R24) as the words LOAD has written, by index, in strictly rising order of index
(`Memory.wf`, Machine/Ops.lean). The unit is the node word, the only access width there is (rules R51, R55). -/
abbrev Memory (p : Params) : Type := List (Nat × NodeWord p)

/-- The input ports in one cycle (rule R28), sampled at its rising clock edge. -/
structure PortIn (p : Params) where
  rst : Bool
  cmdValid : Bool
  cmdWord : CmdWord p
  bitValid : Bool
  bitData : Bool
  bitEos : Bool
  symReady : Bool
deriving DecidableEq, Repr

/-- Every input 0: no reset, no command, a silent bit source, a sink that is not ready. -/
def PortIn.idle {p : Params} : PortIn p :=
  { rst := false, cmdValid := false, cmdWord := 0, bitValid := false, bitData := false, bitEos := false,
    symReady := false }

/-- A transfer on one of the three handshake interfaces (rule R28). -/
inductive Transfer (p : Params) where
  /-- A command was accepted (rule R68). -/
  | command (i : Instr p)
  /-- A bit was consumed, `BitTake` (rule R62). -/
  | bit (b : Bool)
  /-- A symbol was emitted, `SymPut` (rule R66). -/
  | symbol (s : Symbol p)
deriving DecidableEq, Repr

/-- The state: ST, CODE, POS and NODE are the block's (rule R20, "There is no other state"); `inputs` and `xfers`
are its environment's, so that a step is a function of the state (assumption log 2 and 3). -/
structure State (p : Params := .defaults) where
  /-- ST (rule R21). -/
  st : Ctl
  /-- CODE (rule R22). -/
  code : Code
  /-- POS, the tree position and program counter (rule R23). -/
  pos : Index p
  /-- NODE, the node memory (rule R24). -/
  node : Memory p
  /-- What the input ports carry in this and the following cycles, one record a cycle. -/
  inputs : List (PortIn p)
  /-- The transfers made so far, oldest first. -/
  xfers : List (Transfer p)
deriving DecidableEq, Repr

/-- Reasons a step could stop with a model fault. There is none: every step of the block is defined for every state
and every input (rules R146, R64). A fault of the block itself (rule R199) is the state ST = FAULT, a next state.
No constructor, so nobody raises one and no statement can rest on one (safe). -/
inductive Fault
deriving DecidableEq, Repr

/-- Reasons a step could be refused. -/
inductive Refusal where
  /-- Raised only by an arm of `exec` for an instruction that has no meaning yet; at present no arm raises it.
  Safe: the model stops where the hardware goes on. -/
  | notModelled (mnemonic : String)
deriving DecidableEq, Repr

/-- The block after a reset step (rules R32, R220), at any parameters, with nothing loaded (rule R33), no input
given yet and no transfer made. -/
def State.resetAt (p : Params) : State p :=
  { st := .idle, code := .ok, pos := 0#p.idxW, node := [], inputs := [], xfers := [] }

/-- The block after a reset step at the default parameters. -/
def State.reset : State := State.resetAt .defaults

end Sys2Proof.Machine
end

