-- ==== Sys2Proof/Machine/Ops.lean ====
section
/-! DEFINITION. The named operations over the node memory, the registers and the three streams, fault entry
(rule R199) and the return from it (rule R200). -/

namespace Sys2Proof.Machine

/-! ### The node memory -/

/-- The word LOAD last wrote at an index, if any (rule R33: a word holds what the last LOAD to its index wrote). -/
def Memory.lookup {p : Params} : Memory p → Nat → Option (NodeWord p)
  | [], _ => none
  | (b, w) :: m, a => if a = b then some w else Memory.lookup m a

/-- Writing one whole word (rule R55), keeping the indices in rising order. -/
def Memory.write {p : Params} : Memory p → Nat → NodeWord p → Memory p
  | [], a, v => [(a, v)]
  | (b, w) :: m, a, v =>
    if a < b then (a, v) :: (b, w) :: m
    else if a = b then (a, v) :: m
    else (b, w) :: Memory.write m a v

/-- Every listed index is at least `lo` and they rise strictly; each is below `2 ^ IDX_W`. -/
def Memory.sortedFrom {p : Params} : Nat → Memory p → Bool
  | _, [] => true
  | lo, (a, _) :: m => decide (lo ≤ a) && decide (a < 2 ^ p.idxW) && Memory.sortedFrom (a + 1) m

/-- The canonical form of NODE: indices strictly rising and inside the memory. An unlisted index has no written word
(`Memory.lookup` gives `none`), so no entry says what an unlisted one would. -/
def Memory.wf {p : Params} (m : Memory p) : Bool := Memory.sortedFrom 0 m

/-- What a word that no LOAD has written reads as: the power-up contents, a free value (rule R33, assumption
log 1). -/
def unloadedWord {p : Params} (i : Index p) : NodeWord p := Config.powerUpNode p i

/-- `NODE[i]`, that is `MemRead(i, 1)` (rule R12). Reading has no side effect (rule R56). -/
def State.nodeAt {p : Params} (s : State p) (i : Index p) : NodeWord p :=
  (s.node.lookup i.toNat).getD (unloadedWord i)

/-- `NODE[i] <- v`, that is `MemWrite(i, 1, v)` (rule R12). -/
def State.setNode {p : Params} (s : State p) (i : Index p) (v : NodeWord p) : State p :=
  { s with node := s.node.write i.toNat v }

/-! ### The cycle -/

/-- The inputs sampled in this cycle. -/
def State.now {p : Params} (s : State p) : PortIn p := s.inputs.headD PortIn.idle

/-- The same state with other inputs in this cycle. -/
def State.withNow {p : Params} (s : State p) (x : PortIn p) : State p := { s with inputs := x :: s.inputs.tail }

/-- Past the clock edge: the next cycle's inputs are current. Every step ends with it. -/
def State.tick {p : Params} (s : State p) : State p := { s with inputs := s.inputs.tail }

/-! ### Transfers -/

/-- A command is accepted (rule R68). -/
def State.accept {p : Params} (s : State p) (i : Instr p) : State p := { s with xfers := s.xfers ++ [.command i] }

/-- `BitTake()`: the offered bit is consumed (rule R62). -/
def State.bitTake {p : Params} (s : State p) (b : Bool) : State p := { s with xfers := s.xfers ++ [.bit b] }

/-- `SymPut(v)`: one symbol is delivered to the sink (rule R66). -/
def State.symPut {p : Params} (s : State p) (v : Symbol p) : State p := { s with xfers := s.xfers ++ [.symbol v] }

/-! ### The registers -/

/-- `POS <- target` (rule R12). -/
def State.moveTo {p : Params} (s : State p) (target : Index p) : State p := { s with pos := target }

/-- The run begins: `ST <- RUN; CODE <- OK` (rule R125, INT root). -/
def State.beginRun {p : Params} (s : State p) : State p := { s with st := .run, code := .ok }

/-- `finish(code)`, the normal end of a run: `ST <- DONE; CODE <- code` (rule R172). -/
def State.finish {p : Params} (s : State p) (c : Code) : State p := { s with st := .done, code := c }

/-- `raise Fault(code)`, fault entry: `ST <- FAULT; CODE <- code`; POS keeps the index of the node visited and is all
that is saved; NODE is unchanged; there is no vector, mode or mask (rule R199). -/
def State.raiseFault {p : Params} (s : State p) (c : Code) : State p := { s with st := .fault, code := c }

/-- The return from a fault and from a normal end, and the effect of reset on the registers:
`ST <- IDLE; CODE <- OK; POS <- 0`; NODE is not written (rules R126, R200, R220). -/
def State.toIdle {p : Params} (s : State p) : State p := { s with st := .idle, code := .ok, pos := 0#p.idxW }

end Sys2Proof.Machine
end

