-- ==== Sys2Proof/Machine/Operands.lean ====
section
/-! DEFINITION. Where a step takes its operands from: the node word it visits (rule R148: the block's one addressing
mode is direct), the walker's view of the bit source (rule R61), and the child a bit selects (rule R91). -/

namespace Sys2Proof.Machine

/-- `NODE[POS]`, the fetch of a walk step (rule R140). -/
def State.fetch {p : Params} (s : State p) : NodeWord p := s.nodeAt s.pos

/-- `NODE[0]`, the root word that START reads (rules R57, R125). -/
def State.root {p : Params} (s : State p) : NodeWord p := s.nodeAt 0#p.idxW

/-- What the bit source shows in a cycle (rule R61). -/
inductive Peek where
  /-- It says nothing yet. -/
  | wait
  /-- It has no next bit. -/
  | eos
  /-- It offers a bit. -/
  | bit (b : Bool)
deriving DecidableEq, Repr

/-- `BitPeek()`: `bit_valid` has priority over `bit_eos`, and `bit_data` is ignored when `bit_valid = 0`; nothing is
consumed (rule R61). -/
def PortIn.peek {p : Params} (x : PortIn p) : Peek :=
  if x.bitValid then .bit x.bitData else if x.bitEos then .eos else .wait

/-- The child index a consumed bit selects: 0 the left child, 1 the right child (rule R91). -/
def childIndex {p : Params} (l r : Index p) (b : Bool) : Index p := if b then r else l

end Sys2Proof.Machine
end

