-- ==== Sys2Proof/Machine/Flags.lean ====
section
/-! DEFINITION. The block has no flag register (rule R26). What takes a flag's place are predicates computed from the
state: the four predicates on POS and NODE, whether a run is over (rule R171), and whether a walk step stalls
(rule R145). -/

namespace Sys2Proof.Machine

/-- AtInternal: `kind(NODE[POS]) = INT` (rule R26). -/
def State.atInternal {p : Params} (s : State p) : Bool := decide (kind s.fetch = .int)

/-- AtLeaf: `kind(NODE[POS]) = LEAF` (rule R26). -/
def State.atLeaf {p : Params} (s : State p) : Bool := decide (kind s.fetch = .leaf)

/-- AtAbsent: `kind(NODE[POS]) = EMPTY` (rule R26). -/
def State.atAbsent {p : Params} (s : State p) : Bool := decide (kind s.fetch = .empty)

/-- AtReserved: `kind(NODE[POS]) = RSVD3` (rule R26). -/
def State.atReserved {p : Params} (s : State p) : Bool := decide (kind s.fetch = .rsvd3)

/-- A run is over when ST is DONE or ST is FAULT (rule R171). -/
def State.isOver {p : Params} (s : State p) : Bool :=
  match s.st with
  | .idle => false
  | .run => false
  | .done => true
  | .fault => true

/-- A walk step stalls in exactly the cases of rule R145: at INT on `wait`; at LEAF on `wait`; at LEAF on a bit or
`eos` with `sym_ready = 0`. -/
def State.stalls {p : Params} (s : State p) : Bool :=
  match kind s.fetch with
  | .int => decide (s.now.peek = .wait)
  | .leaf => decide (s.now.peek = .wait) || !s.now.symReady
  | .empty => false
  | .rsvd3 => false

end Sys2Proof.Machine
end

