-- ==== Sys2Proof/Machine/Ports.lean ====
section
/-! DEFINITION. The output ports (rule R28) and the output functions (rule R29): functions of the state and of the
inputs of the same cycle. -/

namespace Sys2Proof.Machine

/-- The output ports in one cycle (rule R28). `symData` is `none` where rule R29 leaves `sym_data` unspecified
(assumption log 6). -/
structure PortOut (p : Params) where
  cmdReady : Bool
  bitReady : Bool
  symValid : Bool
  symData : Option (Symbol p)
  stO : BitVec 2
  codeO : BitVec 3
  posO : Index p
deriving DecidableEq, Repr

/-- `cmd_ready = (rst = 0) and (ST != RUN)` (rule R29). -/
def State.cmdReady {p : Params} (s : State p) : Bool := !s.now.rst && decide (s.st ≠ .run)

/-- `bit_ready = (rst = 0) and (ST = RUN) and (kind(NODE[POS]) = INT)` (rule R29). -/
def State.bitReady {p : Params} (s : State p) : Bool := !s.now.rst && decide (s.st = .run) && s.atInternal

/-- `sym_valid = (rst = 0) and (ST = RUN) and (kind(NODE[POS]) = LEAF) and (bit_valid = 1 or bit_eos = 1)`
(rule R29). -/
def State.symValid {p : Params} (s : State p) : Bool :=
  !s.now.rst && decide (s.st = .run) && s.atLeaf && (s.now.bitValid || s.now.bitEos)

/-- `sym_data`: `sym(NODE[POS])` when `sym_valid = 1`, unspecified otherwise (rule R29). -/
def State.symData {p : Params} (s : State p) : Option (Symbol p) := if s.symValid then some (sym s.fetch) else none

/-- `BitTake` happens in this cycle: `bit_valid` and `bit_ready` are both 1 (rule R62). -/
def State.takesBit {p : Params} (s : State p) : Bool := s.now.bitValid && s.bitReady

/-- `SymPut` happens in this cycle: `sym_valid` and `sym_ready` are both 1 (rule R66). -/
def State.putsSymbol {p : Params} (s : State p) : Bool := s.symValid && s.now.symReady

/-- All the output ports (rule R29). -/
def State.out {p : Params} (s : State p) : PortOut p :=
  { cmdReady := s.cmdReady, bitReady := s.bitReady, symValid := s.symValid, symData := s.symData,
    stO := s.st.bits, codeO := s.code.bits, posO := s.pos }

end Sys2Proof.Machine
end

