-- ==== Sys2Proof/Machine/Commands.lean ====
section
/-! DEFINITION. The meanings of the four host commands. Each is the whole command step (rule R120) of a command the
block has accepted: `cycle` (Machine/Cycle.lean) calls it only with `rst = 0` and ST not RUN (rule R121). -/

namespace Sys2Proof.Machine

/-- NOP: nothing; ST, CODE, POS and NODE are unchanged (rule R123). -/
def execNop {p : Params} (s : State p) : Host.Outcome (State p) Fault Refusal :=
  .next (s.accept .nop).tick

/-- LOAD: `NODE[addr] <- data`, stored without being inspected (rule R124). -/
def execLoad {p : Params} (a : Index p) (d : NodeWord p) (s : State p) : Host.Outcome (State p) Fault Refusal :=
  .next ((s.accept (.load a d)).setNode a d).tick

/-- The effect of START (rule R125): outside IDLE nothing; in IDLE `POS <- 0` and a dispatch on the root's kind. -/
def State.startRun {p : Params} (s : State p) : State p :=
  match s.st with
  | .idle =>
    match kind s.root with
    | .empty => (s.moveTo 0#p.idxW).finish .emptyInput
    | .leaf => (s.moveTo 0#p.idxW).raiseFault .degenerateTree
    | .rsvd3 => (s.moveTo 0#p.idxW).raiseFault .badNode
    | .int => (s.moveTo 0#p.idxW).beginRun
  | .run => s
  | .done => s
  | .fault => s

/-- START (rule R125). -/
def execStart {p : Params} (s : State p) : Host.Outcome (State p) Fault Refusal :=
  .next (s.accept .start).startRun.tick

/-- CLEAR: `ST <- IDLE; CODE <- OK; POS <- 0`; NODE is unchanged (rule R126). -/
def execClear {p : Params} (s : State p) : Host.Outcome (State p) Fault Refusal :=
  .next (s.accept .clear).toIdle.tick

end Sys2Proof.Machine
end

