-- ==== Sys2Proof/Machine/Walk.lean ====
section
/-! DEFINITION. The meanings of the four node kinds: the walk step (rule R140) at a node of each kind. `cycle`
(Machine/Cycle.lean) calls them only with `rst = 0` and ST = RUN, with the node word at POS. -/

namespace Sys2Proof.Machine

/-- EMPTY: the walker stands where no node is, fault DECODE_NO_CHILD; neither the source nor the sink is looked at
(rule R143). -/
def execEmpty {p : Params} (s : State p) : Host.Outcome (State p) Fault Refusal :=
  .next (s.raiseFault .decodeNoChild).tick

/-- A consumed bit at an INT node (rule R141): the bit is consumed in every sub-case, then an absent child (index 0)
faults with POS unchanged, and any other child becomes POS. -/
def State.descend {p : Params} (s : State p) (l r : Index p) (b : Bool) : State p :=
  if childIndex l r b = 0#p.idxW then (s.bitTake b).raiseFault .decodeNoChild
  else (s.bitTake b).moveTo (childIndex l r b)

/-- INT: stall on `wait`, fault DECODE_TRUNCATED on `eos`, descend on a bit (rule R141). -/
def State.walkInt {p : Params} (s : State p) (l r : Index p) : State p :=
  match s.now.peek with
  | .wait => s
  | .eos => s.raiseFault .decodeTruncated
  | .bit b => s.descend l r b

/-- INT (rule R141). -/
def execInt {p : Params} (l r : Index p) (s : State p) : Host.Outcome (State p) Fault Refusal :=
  .next (s.walkInt l r).tick

/-- LEAF: stall on `wait`; otherwise offer the symbol and, when the sink takes it, return to the root if a bit
remains or finish if none does; the bit is not consumed (rule R142). -/
def State.walkLeaf {p : Params} (s : State p) (v : Symbol p) : State p :=
  match s.now.peek with
  | .wait => s
  | .bit _ => if s.now.symReady then (s.symPut v).moveTo 0#p.idxW else s
  | .eos => if s.now.symReady then (s.symPut v).finish .ok else s

/-- LEAF (rule R142). -/
def execLeaf {p : Params} (v : Symbol p) (s : State p) : Host.Outcome (State p) Fault Refusal :=
  .next (s.walkLeaf v).tick

/-- RSVD3: a reserved node word, fault BAD_NODE; neither the source nor the sink is looked at (rule R144). -/
def execRsvd3 {p : Params} (s : State p) : Host.Outcome (State p) Fault Refusal :=
  .next (s.raiseFault .badNode).tick

end Sys2Proof.Machine
end

