-- ==== Sys2Proof/Machine/Cycle.lean ====
section
/-! DEFINITION. One step of the block (rules R11, R146): which of reset step, command step and walk step it is, what
is fetched and decoded in it, and how an instruction is placed where the next step fetches it. -/

namespace Sys2Proof.Machine

/-- The reset step: `ST <- IDLE; CODE <- OK; POS <- 0`, NODE not written, no transfer (rule R220). -/
def State.resetStep {p : Params} (s : State p) : State p := s.toIdle.tick

/-- One step, with `run` the meaning of a decoded instruction. `rst` comes first; then ST decides between the walk
step, which executes the node word at POS, and the command step, which executes the offered command word if there is
one and otherwise changes nothing (rules R120, R121, R140, R198, R220). -/
def cycle {p : Params} (run : Instr p → State p → Host.Outcome (State p) Fault Refusal) (s : State p) :
    Host.Outcome (State p) Fault Refusal :=
  if s.now.rst then .next s.resetStep
  else if s.st = .run then run (decodeNode s.fetch) s
  else if s.now.cmdValid then run (decodeCommand s.now.cmdWord) s
  else .next s.tick

/-- Make `c` the command word accepted in the next step: offered on the command port with `rst = 0`, and ST moved out
of RUN, where no command is accepted (rule R120). -/
def State.placeCommand {p : Params} (s : State p) (c : CmdWord p) : State p :=
  { s.withNow { s.now with rst := false, cmdValid := true, cmdWord := c } with
    st := if s.st = .run then .idle else s.st }

/-- Make `w` the node word executed in the next step: stored at POS, with ST = RUN and `rst = 0` (rule R140). -/
def State.placeNode {p : Params} (s : State p) (w : NodeWord p) : State p :=
  { (s.withNow { s.now with rst := false }).setNode s.pos w with st := .run }

/-- The state whose next step fetches the row's word `w` (`tableFormat` says from which place). -/
def State.placeTableWord (s : State) (nbits w : Nat) : State :=
  match tableFormat nbits with
  | .command => s.placeCommand (BitVec.ofNat _ w)
  | .node => s.placeNode (BitVec.ofNat _ w)

/-- The dispatch of Machine/Dispatch.lean at any parameters; at the default ones it is `exec`
(`exec_eq_execAt`, Laws/Machine.lean). -/
def execAt {p : Params} (i : Instr p) (s : State p) : Host.Outcome (State p) Fault Refusal :=
  match i with
  | .nop => execNop s
  | .load a d => execLoad a d s
  | .start => execStart s
  | .clear => execClear s
  | .empty => execEmpty s
  | .int l r => execInt l r s
  | .leaf v => execLeaf v s
  | .rsvd3 => execRsvd3 s

/-- One step of an instance with any parameters (rule R6); at the default ones it is `step`. -/
def stepAt {p : Params} (s : State p) : Host.Outcome (State p) Fault Refusal := cycle execAt s

end Sys2Proof.Machine
end

