-- ==== Sys2Proof/Machine/Dispatch.lean ====
section
/-! DEFINITION. The dispatch: one arm per instruction, each one direct call of its meaning. -/

namespace Sys2Proof.Machine

def exec (i : Instr) (s : State) : Host.Outcome State Fault Refusal :=
  match i with
  | .nop => Sys2Proof.Machine.execNop s
  | .load a d => Sys2Proof.Machine.execLoad a d s
  | .start => Sys2Proof.Machine.execStart s
  | .clear => Sys2Proof.Machine.execClear s
  | .empty => Sys2Proof.Machine.execEmpty s
  | .int l r => Sys2Proof.Machine.execInt l r s
  | .leaf v => Sys2Proof.Machine.execLeaf v s
  | .rsvd3 => Sys2Proof.Machine.execRsvd3 s

end Sys2Proof.Machine
end

