-- ==== Sys2Proof/Machine/Step.lean ====
section
/-! DEFINITION. The step of the machine at the default parameters, and the placing of one instruction word where it
fetches next. -/

namespace Sys2Proof.Machine

/-- One step: one rising clock edge (rule R11). -/
def step (s : State) : Host.Outcome State Fault Refusal := cycle exec s

/-- `s` with the word `w` of an opcode-table row where the next step fetches its instruction (assumption log 7). -/
def State.withFetchWord (s : State) (nbits w : Nat) : State := s.placeTableWord nbits w

end Sys2Proof.Machine
end

