-- ==== Sys2Proof/Machine/Reference.lean ====
section
/-! DEFINITION. A run's result (rule R173), the reference function `Decode` (rule R174), and the paths of a tree held
in node memory (rules R94, R178). A node memory is here what it is in rule R174: a function from index to word. -/

namespace Sys2Proof.Machine

/-- The result of a finished run, `(S, i, ST, CODE, POS)` (rule R173). -/
structure Result (p : Params) where
  /-- S, the symbols emitted during the run, in order. -/
  syms : List (Symbol p)
  /-- i, the number of bits consumed during the run. -/
  taken : Nat
  st : Ctl
  code : Code
  pos : Index p
deriving DecidableEq, Repr

/-- The loop of `Decode` (rule R174), one pass for each unit of fuel; `none` when the fuel is used up. -/
def decodeLoop {p : Params} (N : Index p → NodeWord p) (B : List Bool) :
    Nat → Index p → List (Symbol p) → Nat → Option (Result p)
  | 0, _, _, _ => none
  | fuel + 1, pos, S, i =>
    match kind (N pos) with
    | .empty => some ⟨S, i, .fault, .decodeNoChild, pos⟩
    | .rsvd3 => some ⟨S, i, .fault, .badNode, pos⟩
    | .leaf =>
      if i = B.length then some ⟨S ++ [sym (N pos)], i, .done, .ok, pos⟩
      else decodeLoop N B fuel 0#p.idxW (S ++ [sym (N pos)]) i
    | .int =>
      match B[i]? with
      | none => some ⟨S, i, .fault, .decodeTruncated, pos⟩
      | some b =>
        if childIndex (left (N pos)) (right (N pos)) b = 0#p.idxW then
          some ⟨S, i + 1, .fault, .decodeNoChild, pos⟩
        else decodeLoop N B fuel (childIndex (left (N pos)) (right (N pos)) b) S (i + 1)

/-- `Decode(N, B)` (rule R174). The fuel is rule R175's bound on the passes, `2 * n + 2`. -/
def runDecode {p : Params} (N : Index p → NodeWord p) (B : List Bool) : Option (Result p) :=
  match kind (N 0#p.idxW) with
  | .empty => some ⟨[], 0, .done, .emptyInput, 0#p.idxW⟩
  | .leaf => some ⟨[], 0, .fault, .degenerateTree, 0#p.idxW⟩
  | .rsvd3 => some ⟨[], 0, .fault, .badNode, 0#p.idxW⟩
  | .int => decodeLoop N B (2 * B.length + 2) 0#p.idxW [] 0

/-- The symbols among some transfers, in order. -/
def symsOf {p : Params} (xs : List (Transfer p)) : List (Symbol p) :=
  xs.filterMap fun x => match x with
    | .symbol v => some v
    | .bit _ => none
    | .command _ => none

/-- The bits among some transfers, in order. -/
def bitsOf {p : Params} (xs : List (Transfer p)) : List Bool :=
  xs.filterMap fun x => match x with
    | .bit b => some b
    | .symbol _ => none
    | .command _ => none

/-- The transfers made between an earlier state and a later one. -/
def xfersSince {p : Params} (s t : State p) : List (Transfer p) := t.xfers.drop s.xfers.length

/-- The result of the run that began at `s` and is over at `t` (rule R173). -/
def resultOf {p : Params} (s t : State p) : Result p :=
  ⟨symsOf (xfersSince s t), (bitsOf (xfersSince s t)).length, t.st, t.code, t.pos⟩

/-! ### Paths in a tree -/

/-- The word reached from `i` by a bit-path that goes through INT words and child indices that are not 0, if there is
one. -/
def follow {p : Params} (N : Index p → NodeWord p) : Index p → List Bool → Option (Index p)
  | i, [] => some i
  | i, b :: bs =>
    match kind (N i) with
    | .int =>
      if childIndex (left (N i)) (right (N i)) b = 0#p.idxW then none
      else follow N (childIndex (left (N i)) (right (N i)) b) bs
    | .empty => none
    | .leaf => none
    | .rsvd3 => none

/-- `bs` is the bit-path from the root to the leaf at `x` (rule R178). -/
def IsLeafPath {p : Params} (N : Index p → NodeWord p) (bs : List Bool) (x : Index p) : Prop :=
  follow N 0#p.idxW bs = some x ∧ kind (N x) = .leaf

/-- A proper tree (rule R178): no word is reachable from index 0 by two paths, the root is INT, every reachable word
is INT or LEAF, and every reachable INT word has two child indices that are not 0. -/
structure ProperTree {p : Params} (N : Index p → NodeWord p) : Prop where
  unique : ∀ bs cs x, follow N 0#p.idxW bs = some x → follow N 0#p.idxW cs = some x → bs = cs
  root : kind (N 0#p.idxW) = .int
  nodes : ∀ bs x, follow N 0#p.idxW bs = some x →
    kind (N x) = .leaf ∨ (kind (N x) = .int ∧ left (N x) ≠ 0#p.idxW ∧ right (N x) ≠ 0#p.idxW)

end Sys2Proof.Machine
end

