-- ==== Sys2Proof/Machine/Assembler.lean ====
section
/-! DEFINITION. The host's assembler: from the serialized code table (rule R96) to a node memory image (rule R98),
its errors (rules R99 and R100), and the pseudo-instructions (rule R101). It is host software and no part of the
block (rule R5). -/

namespace Sys2Proof.Machine

/-- The assembler's errors. -/
inductive AsmError where
  /-- Rule R99. -/
  | malformedTable
  /-- A symbol code that does not fit SYM_W bits (rule R100). -/
  | symbolRange
  /-- A tree that needs more than 2^IDX_W node words (rule R100). -/
  | capacity
deriving DecidableEq, Repr

/-- A record of the code table: a symbol code and a bit-string (rule R96). -/
structure Record where
  symbol : Nat
  bits : List Char
deriving DecidableEq, Repr

/-- The bit-path a record's bit-string spells: '0' is the left child, '1' the right one (rule R98). -/
def Record.path (r : Record) : List Bool := r.bits.map fun c => decide (c = '1')

/-- A node memory image, `IMG[0 .. next-1]` (rule R98): the word of index i stands at place i, and `next` is its
length. -/
abbrev Image (p : Params) : Type := List (NodeWord p)

/-! The four node forms of the textual notation (rule R95), as words. -/

/-- `LEAF <symbol>`. -/
def leafWord {p : Params} (s : Symbol p) : NodeWord p := packNode 0b10 (s.setWidth p.payloadW)

/-- `INT <left> <right>`. -/
def intWord {p : Params} (l r : Index p) : NodeWord p := packNode 0b01 (childPayload l r)

/-- `EMPTY`, payload 0. -/
def emptyWord {p : Params} : NodeWord p := packNode 0b00 0

/-- `RSVD3 <payload>`. -/
def reservedWord {p : Params} (payload : BitVec p.payloadW) : NodeWord p := packNode 0b11 payload

/-- The word at a place of the image. -/
def Image.at {p : Params} (img : Image p) (i : Nat) : NodeWord p := img.getD i emptyWord

/-- The image as a node memory (rule R174), EMPTY beyond its end. -/
def Image.nodes {p : Params} (img : Image p) (i : Index p) : NodeWord p := img.at i.toNat

/-- "set the left field (c = '0') or right field (c = '1') of IMG[cur] to idx" (rule R98). -/
def Image.setChild {p : Params} (img : Image p) (cur : Nat) (b : Bool) (idx : Nat) : Image p :=
  if b then img.set cur (intWord (left (img.at cur)) (BitVec.ofNat _ idx))
  else img.set cur (intWord (BitVec.ofNat _ idx) (right (img.at cur)))

/-- A new word at the next unused index, made a child of `cur` (rule R98; `Capacity`, rule R100). -/
def Image.newChild {p : Params} (img : Image p) (cur : Nat) (b : Bool) (w : NodeWord p) :
    Except AsmError (Image p) :=
  if 2 ^ p.idxW ≤ img.length then .error .capacity
  else .ok ((img ++ [w]).setChild cur b img.length)

/-- The character of a bit-string as a bit; any other is malformed (rule R99). -/
def bitOfChar (c : Char) : Except AsmError Bool :=
  if c = '0' then .ok false else if c = '1' then .ok true else .error .malformedTable

/-- The inner loop of `Assemble` (rule R98): walk and create the path `bs` from `cur`, and place the leaf at its
end. -/
def Image.insertPath {p : Params} (img : Image p) (cur : Nat) (s : Symbol p) : List Char → Except AsmError (Image p)
  | [] => .error .malformedTable
  | c :: bs =>
    match bitOfChar c with
    | .error e => .error e
    | .ok b =>
      if kind (img.at cur) = .leaf then .error .malformedTable
      else
        match bs with
        | [] =>
          if childIndex (left (img.at cur)) (right (img.at cur)) b ≠ 0#p.idxW then .error .malformedTable
          else img.newChild cur b (leafWord s)
        | c' :: bs' =>
          if childIndex (left (img.at cur)) (right (img.at cur)) b = 0#p.idxW then
            match img.newChild cur b (intWord 0 0) with
            | .error e => .error e
            | .ok img' => Image.insertPath img' img.length s (c' :: bs')
          else Image.insertPath img (childIndex (left (img.at cur)) (right (img.at cur)) b).toNat s (c' :: bs')

/-- One record of the outer loop of `Assemble` (rule R98). -/
def Image.addRecord {p : Params} (img : Image p) (r : Record) : Except AsmError (Image p) :=
  if 2 ^ p.symW ≤ r.symbol then .error .symbolRange
  else
    match r.bits with
    | [] =>
      if kind (img.at 0) ≠ .empty then .error .malformedTable
      else .ok (img.set 0 (leafWord (BitVec.ofNat p.symW r.symbol)))
    | c :: bs =>
      if kind (img.at 0) = .empty then Image.insertPath (img.set 0 (intWord 0 0)) 0 (BitVec.ofNat p.symW r.symbol) (c :: bs)
      else Image.insertPath img 0 (BitVec.ofNat p.symW r.symbol) (c :: bs)

/-- The outer loop of `Assemble`, from an image already begun. -/
def Image.addRecords {p : Params} (img : Image p) : List Record → Except AsmError (Image p)
  | [] => .ok img
  | r :: rs =>
    match img.addRecord r with
    | .error e => .error e
    | .ok img' => Image.addRecords img' rs

/-- `Assemble(records)` (rule R98): it starts from the one word EMPTY at index 0. -/
def assemble (p : Params) (rs : List Record) : Except AsmError (Image p) :=
  Image.addRecords (p := p) [emptyWord] rs

/-! ### The text form -/

/-- The value of a decimal digit. -/
def digitOf (c : Char) : Option Nat :=
  if '0'.toNat ≤ c.toNat ∧ c.toNat ≤ '9'.toNat then some (c.toNat - '0'.toNat) else none

/-- The value of a run of decimal digits, with `acc` read so far. -/
def digitsOf (acc : Nat) : List Char → Option Nat
  | [] => some acc
  | c :: cs =>
    match digitOf c with
    | none => none
    | some d => digitsOf (10 * acc + d) cs

/-- An integer symbol line: one or more decimal digits (rule R96; assumption log 8). -/
def symbolLine : List Char → Option Nat
  | [] => none
  | c :: cs => digitsOf 0 (c :: cs)

/-- The records of a table's lines, two lines a record; an odd number of lines, or a symbol line that is no integer,
is MalformedTable (rules R96, R99, R100). -/
def parseTable : List (List Char) → Except AsmError (List Record)
  | [] => .ok []
  | [_] => .error .malformedTable
  | l :: bs :: rest =>
    match symbolLine l with
    | none => .error .malformedTable
    | some n =>
      match parseTable rest with
      | .error e => .error e
      | .ok rs => .ok (⟨n, bs⟩ :: rs)

/-! ### Pseudo-instructions -/

/-- `LOAD i, IMG[i]` for each word of an image, from index `i` upward (rule R101). -/
def loadsFrom {p : Params} (i : Nat) : Image p → List (Instr p)
  | [] => []
  | w :: ws => .load (BitVec.ofNat _ i) w :: loadsFrom (i + 1) ws

/-- `LOADTREE <code table>` (rule R101). -/
def loadTree (p : Params) (lines : List (List Char)) : Except AsmError (List (Instr p)) :=
  match parseTable lines with
  | .error e => .error e
  | .ok rs =>
    match assemble p rs with
    | .error e => .error e
    | .ok img => .ok (loadsFrom 0 img)

/-- `RUN` (rule R101): the one command START; the waiting until `st_o` is DONE or FAULT issues no command. -/
def runPseudo {p : Params} : List (Instr p) := [.start]

end Sys2Proof.Machine
end

