-- ==== Sys2Proof/Machine/Environment.lean ====
section
/-! DEFINITION. What the environment owes (rules R60, R63, R67), as predicates on the inputs of a cycle and on a
whole run. The step itself is defined for every input (rule R64); these are the premises of statements about runs. -/

namespace Sys2Proof.Machine

/-- What a bit source that still holds the bits `rest` may show (rule R60): it offers the next bit only if there is
one, and that bit; it reports exhaustion only if there is none; it may always be silent. -/
def Peek.truthful (rest : List Bool) : Peek → Bool
  | .wait => true
  | .eos => rest.isEmpty
  | .bit b => decide (rest.head? = some b)

/-- No cycle makes the walker wait: the source offers a bit or reports exhaustion, and the sink accepts. -/
def PortIn.prompt {p : Params} (x : PortIn p) : Bool := (x.bitValid || x.bitEos) && x.symReady

/-- A START command is offered in this cycle and will be accepted as the beginning of a run (rule R170). -/
def State.offersStart {p : Params} (s : State p) : Bool :=
  decide (s.st = .idle) && !s.now.rst && s.now.cmdValid && decide (op s.now.cmdWord = .start)

/-- The machine with any parameters (rule R6), in the host's form; `Sys2Proof.core` is the one at the defaults. -/
abbrev coreAt (p : Params) : Host.Core :=
  { State := State p, Fault := Fault, Refusal := Refusal, step := stepAt, reset := State.resetAt p }

/-- A run in progress (rule R170): `s` offers the START that begins it, and in each of the `k` states that follow, ST
is RUN, `rst` is 0 and the bit source is truthful about `B` (rule R60), of which it still holds what the run has not
consumed (assumption log 14: this is less than duties (a), (b), (c) and (e) of rule R63, `SourceDuties`). -/
def RunInProgress {p : Params} (B : List Bool) (k : Nat) (s : State p) : Prop :=
  s.offersStart = true ∧
  ∀ j u, 0 < j → j ≤ k → (coreAt p).run j s = .next u →
    u.st = .run ∧ u.now.rst = false ∧ u.now.peek.truthful (B.drop (bitsOf (xfersSince s u)).length) = true

/-- How many of the steps `0` to `k` of a run are not stalls, `tr j` being the state before step `j`: the START step,
step 0, which rule R170 counts and which is no walk step and so no stall, and the walk steps that do not stall
(rule R145). -/
def busySteps {p : Params} (tr : Nat → Host.Outcome (State p) Fault Refusal) (k : Nat) : Nat :=
  ((List.range (k + 1)).filter fun j =>
    match tr j with
    | .next u => decide (j = 0) || !u.stalls
    | .fault _ => false
    | .refused _ => false).length

/-! ### An environment that goes on for ever

`inputs` of a state is a finite list. Here the ports are driven by a sequence `f` with one record for every cycle, so
that a source and a sink that never fall silent can be expressed; what `inputs` holds is then never looked at. -/

/-- The state in cycle `k`, with that cycle's inputs on the ports, of a block that is in state `s` in cycle 0 and whose
ports carry `f j` in cycle `j`. -/
def drive {p : Params} : Nat → (Nat → PortIn p) → State p → Host.Outcome (State p) Fault Refusal
  | 0, f, s => .next (s.withNow (f 0))
  | k + 1, f, s =>
    match stepAt (s.withNow (f 0)) with
    | .next t => drive k (fun j => f (j + 1)) t
    | .fault e => .fault e
    | .refused e => .refused e

/-- The run that begins with the START step in cycle 0 is in progress in cycle `j`, in the state `u`: ST is RUN after
each step before it (rule R170). -/
def InRun {p : Params} (f : Nat → PortIn p) (s : State p) (j : Nat) (u : State p) : Prop :=
  0 < j ∧ drive j f s = .next u ∧ ∀ i v, 0 < i → i ≤ j → drive i f s = .next v → v.st = .run

/-- The run finishes in its `k`-th step, in the state `t`: that is the first step after which ST is DONE or FAULT, and
after every earlier one ST is RUN, so no reset abandoned the run (rules R170, R171). -/
def RunFinishes {p : Params} (f : Nat → PortIn p) (s : State p) (k : Nat) (t : State p) : Prop :=
  0 < k ∧ drive k f s = .next t ∧ t.isOver = true ∧
    ∀ i v, 0 < i → i < k → drive i f s = .next v → v.st = .run

/-- No reset step abandons the run (rule R170). -/
def NotAbandoned {p : Params} (f : Nat → PortIn p) (s : State p) : Prop := ∀ j u, InRun f s j u → (f j).rst = false

/-! ### The duties of the bit source (rule R63) and of the sink (rule R67), over a whole run -/

/-- What the source still holds of `B` in a later state `u` of the run that began at `s`: the bits from index `i` on
(rule R60), where `i` is the number of bits consumed. -/
def heldBits {p : Params} (B : List Bool) (s u : State p) : List Bool :=
  B.drop (bitsOf (xfersSince s u)).length

/-- In every cycle of the run what the source shows is true of the bits it still holds (rule R60). -/
def SourceTruthful {p : Params} (B : List Bool) (f : Nat → PortIn p) (s : State p) : Prop :=
  ∀ j u, InRun f s j u → (f j).peek.truthful (heldBits B s u) = true

/-- Duty (a) of rule R63 between the cycle of `s` and the next: a bit offered and not consumed in this cycle is offered
again in the next, unchanged. A consumed bit (rule R62) leaves the source free. -/
def State.keepsOffer {p : Params} (s : State p) (next : PortIn p) : Bool :=
  !s.now.bitValid || s.takesBit || (next.bitValid && next.bitData == s.now.bitData)

/-- Duty (b) of rule R63, first half, in one cycle: `bit_eos` is 1 only when none of the bits is left. -/
def PortIn.eosOnlyAtEnd {p : Params} (rest : List Bool) (x : PortIn p) : Bool := !x.bitEos || rest.isEmpty

/-- Duty (b) of rule R63, second half, between a cycle and the next: exhaustion once reported is reported again. -/
def PortIn.keepsEos {p : Params} (now next : PortIn p) : Bool :=
  !(now.peek == .eos) || next.peek == .eos

/-- Duties (a), (b), (c) and (e) of rule R63, kept in a run by a source that holds `B`. Duty (e), that the sequence
does not depend on what the walker does, is that `B` is fixed before the run. -/
structure SourceDuties {p : Params} (B : List Bool) (f : Nat → PortIn p) (s : State p) : Prop where
  /-- The bits offered are those of `B`, in order (rule R60). -/
  truthful : SourceTruthful B f s
  /-- Duty (a). -/
  holdsOffer : ∀ j u v, InRun f s j u → InRun f s (j + 1) v → u.keepsOffer (f (j + 1)) = true
  /-- Duty (b), first half. -/
  eosAtEnd : ∀ j u, InRun f s j u → (f j).eosOnlyAtEnd (heldBits B s u) = true
  /-- Duty (b), second half. -/
  holdsEos : ∀ j u v, InRun f s j u → InRun f s (j + 1) v → (f j).keepsEos (f (j + 1)) = true
  /-- Duty (c): no bit is offered in any cycle of the run after one that reported exhaustion. -/
  noOfferAfterEos : ∀ i j u v, i < j → InRun f s i u → InRun f s j v → (f i).peek = .eos → (f j).bitValid = false

/-- Duty (d) of rule R63, fairness of the source: from any cycle of the run on, it says `bit` or `eos` after finitely
many cycles. -/
def SourceSpeaks {p : Params} (f : Nat → PortIn p) (s : State p) : Prop :=
  ∀ j u, InRun f s j u → ∃ k, j ≤ k ∧ (f k).peek ≠ .wait

/-- Rule R67, fairness of the sink: from any cycle of the run in which a symbol is offered on, it accepts one after
finitely many cycles. It may be busy in any of them. -/
def SinkAccepts {p : Params} (f : Nat → PortIn p) (s : State p) : Prop :=
  ∀ j u, InRun f s j u → u.symValid = true → ∃ k v, j ≤ k ∧ drive k f s = .next v ∧ v.putsSymbol = true

/-- Executing some commands one after another, as a host does when it loads a tree (rule R101). -/
def execAll {p : Params} : List (Instr p) → State p → Host.Outcome (State p) Fault Refusal
  | [], s => .next s
  | i :: is, s =>
    match execAt i s with
    | .next t => execAll is t
    | .fault e => .fault e
    | .refused e => .refused e

end Sys2Proof.Machine
end

