-- ==== Sys2Proof/Safety.lean ====
section
/-! DEFINITION. What a good state is: the invariant of rule R30 and the canonical form of the node memory. -/

namespace Sys2Proof.Machine

/-- ST and CODE agree (rule R30, first sentence). -/
def State.codeAgrees {p : Params} (s : State p) : Prop :=
  match s.st with
  | .idle => s.code = .ok
  | .run => s.code = .ok
  | .done => s.code = .ok ∨ s.code = .emptyInput
  | .fault => s.code = .decodeTruncated ∨ s.code = .decodeNoChild ∨ s.code = .degenerateTree ∨ s.code = .badNode

/-- A bit has been consumed since POS was last set to 0, as the record of transfers shows it in a run: START
(a command) and the emission of a symbol set POS to 0, and a stall makes no transfer. -/
def State.bitSinceRoot {p : Params} (s : State p) : Bool :=
  match s.xfers.getLast? with
  | some (.bit _) => true
  | some (.command _) => false
  | some (.symbol _) => false
  | none => false

/-- `c` is a child index of some INT word of NODE. -/
def State.isChild {p : Params} (s : State p) (c : Index p) : Prop :=
  ∃ j : Index p, kind (s.nodeAt j) = .int ∧ (left (s.nodeAt j) = c ∨ right (s.nodeAt j) = c)

/-- The invariant of rule R30. -/
structure State.Inv {p : Params} (s : State p) : Prop where
  /-- ST and CODE agree. -/
  codes : s.codeAgrees
  /-- When ST = IDLE, POS = 0. -/
  idlePos : s.st = .idle → s.pos = 0#p.idxW
  /-- When ST = RUN, `NODE[0]` has kind INT. -/
  runRoot : s.st = .run → kind s.root = .int
  /-- When ST = RUN and no bit has been consumed since POS was last set to 0, POS = 0. -/
  runAtRoot : s.st = .run → s.bitSinceRoot = false → s.pos = 0#p.idxW
  /-- When ST = RUN and a bit has been consumed since then, POS is a child index of an INT word and is not 0. -/
  runBelowRoot : s.st = .run → s.bitSinceRoot = true → s.pos ≠ 0#p.idxW ∧ s.isChild s.pos
  /-- NODE is in canonical form. -/
  memory : s.node.wf = true

end Sys2Proof.Machine
end

