-- ==== Sys2Proof/Certificates/Slice0/Obligations.lean ====
section
/-! DEFINITION. The statements for the provers. Each is about the machine or the encoding, for every state or operand;
none is about a program. A statement that names `exec` or `step` is about the machine at the default parameters; one
that quantifies a `Params` is about every pair of parameters (rule R6). -/

open Sys2Proof Sys2Proof.Machine

/-! ### Encoding -/

/-- Rules R81 to R90: decoding the encoding of an instruction gives it back, with every operand at every value, at
every pair of parameters. -/
def Obligations.EncodeThenDecodeGivesBackInstruction : Prop :=
  ∀ (p : Params) (i : Instr p), decode (encode i) = i

/-- Rule R86: two node words decode alike exactly when they agree in kind and in the fields their kind uses, so no
ignored payload bit reaches the walker and no used bit is dropped. -/
def Obligations.NodeDecoderReadsExactlyTheUsedFields : Prop :=
  ∀ (p : Params) (w w' : NodeWord p),
    decodeNode w = decodeNode w' ↔
      kind w = kind w' ∧ (kind w = .int → left w = left w' ∧ right w = right w') ∧
        (kind w = .leaf → sym w = sym w')

/-- Rule R90: NOP, START and CLEAR ignore addr and data; LOAD uses every bit of them, so two LOAD words that decode
alike are the same word. -/
def Obligations.CommandDecoderReadsExactlyTheUsedFields : Prop :=
  ∀ (p : Params) (c c' : CmdWord p),
    decodeCommand c = decodeCommand c' ↔ op c = op c' ∧ (op c = .load → c = c')

/-- Rules R82 to R85 and R88: each field is the run of bits the spec names, read as an unsigned number. -/
def Obligations.FieldsAreTheBitsTheSpecNames : Prop :=
  ∀ (p : Params) (w : NodeWord p) (c : CmdWord p),
    (kindBits w).toNat = w.toNat / 2 ^ (p.nodeW - 2) ∧
    (left w).toNat = w.toNat / 2 ^ p.idxW % 2 ^ p.idxW ∧
    (right w).toNat = w.toNat % 2 ^ p.idxW ∧
    (sym w).toNat = w.toNat % 2 ^ p.symW ∧
    (opBits c).toNat = c.toNat / 2 ^ (p.cmdW - 2) ∧
    (addr c).toNat = c.toNat / 2 ^ p.nodeW % 2 ^ p.idxW ∧
    (data c).toNat = c.toNat % 2 ^ p.nodeW

/-- spec/95_test_vectors.md B1: words written out from the spec's encodings decode to the instruction they stand
for. -/
def Obligations.SpecWordsDecode : Prop :=
  decodeTableWord 24 0x40202 = some (.int 1 2) ∧
  decodeTableWord 24 0x7FFFF = some (.int 511 511) ∧
  decodeTableWord 24 0xBFF41 = some (.leaf 65) ∧
  decodeTableWord 24 0x3FFFF = some .empty ∧
  decodeTableWord 24 0xC0005 = some .rsvd3 ∧
  decodeTableWord 32 0x1FFFFFFF = some .nop ∧
  decodeTableWord 32 0x3FFC0005 = some (.load 511 0xC0005) ∧
  decodeTableWord 32 0x5FFFFFFF = some .start ∧
  decodeTableWord 32 0x7FFFFFFF = some .clear

/-- Rule R93: no word of either format is illegal; a raw number is refused exactly when it is too wide for the
format. -/
def Obligations.EveryWordOfAFormatDecodes : Prop :=
  ∀ (p : Params) (f : Format) (w : Nat),
    (∃ i : Instr p, decodeRaw p f w = .ok i) ↔ w < 2 ^ f.width p

/-! ### The step -/

/-- Rule R140: in a step with `rst = 0` and ST = RUN, `step` is `exec` of the instruction decoded from `NODE[POS]`,
and nothing is added around it (each meaning passes the clock edge itself). -/
def Obligations.StepRunsTheNodeAtPos : Prop :=
  ∀ s : State, s.now.rst = false → s.st = .run → step s = exec (decodeNode (s.nodeAt s.pos)) s

/-- Rule R120: in a step with `rst = 0` and ST not RUN, `step` is `exec` of the instruction decoded from an offered
command word; with none offered nothing changes but that the cycle is over. -/
def Obligations.StepRunsTheOfferedCommand : Prop :=
  ∀ s : State, s.now.rst = false → s.st ≠ .run →
    (s.now.cmdValid = true → step s = exec (decodeCommand s.now.cmdWord) s) ∧
    (s.now.cmdValid = false → ∃ t, step s = .next t ∧ t.st = s.st ∧ t.code = s.code ∧ t.pos = s.pos ∧
      (∀ a, t.nodeAt a = s.nodeAt a) ∧ t.node = s.node ∧ t.xfers = s.xfers ∧ t.inputs = s.inputs.tail)

/-- Rule R220: a reset step sets ST, CODE and POS, whatever the state and the other inputs, does not write NODE,
makes no transfer, and drives the three handshake outputs to 0. -/
def Obligations.ResetStepSetsTheRegisters : Prop :=
  ∀ s : State, s.now.rst = true →
    (s.cmdReady = false ∧ s.bitReady = false ∧ s.symValid = false) ∧
    ∃ t, step s = .next t ∧ t.st = .idle ∧ t.code = .ok ∧ t.pos = 0#_ ∧ (∀ a, t.nodeAt a = s.nodeAt a) ∧
      t.node = s.node ∧ t.xfers = s.xfers ∧ t.inputs = s.inputs.tail

/-- Rules R146 and R64: every step of every instance is defined, for every state and every input. -/
def Obligations.EveryStepIsDefined : Prop :=
  (∀ (p : Params) (s : State p), ∃ t, stepAt s = .next t ∧ t.inputs = s.inputs.tail) ∧
  ∀ s : State, step s = stepAt s

/-- Rule R121: in RUN the command port is not looked at; `cmd_ready` is 0 and the step is the same for every
`cmd_valid` and `cmd_word`. -/
def Obligations.CommandPortIgnoredInRun : Prop :=
  ∀ (s : State) (v : Bool) (c : CmdWord), s.st = .run →
    s.cmdReady = false ∧ step (s.withNow { s.now with cmdValid := v, cmdWord := c }) = step s

/-- Rules R123 to R126, R143 and R144: outside RUN, and at an EMPTY or RSVD3 word in RUN, the step is the same for
every value of the bit source's and the sink's inputs. -/
def Obligations.StreamsIgnoredOutsideIntAndLeaf : Prop :=
  ∀ (s : State) (v d e r : Bool),
    s.st ≠ .run ∨ kind s.fetch = .empty ∨ kind s.fetch = .rsvd3 →
    step (s.withNow { s.now with bitValid := v, bitData := d, bitEos := e, symReady := r }) = step s

/-- Rule R61: `BitPeek()` is `bit(bit_data)` if `bit_valid = 1`, whatever `bit_eos` is, else `eos` if `bit_eos = 1`,
else `wait`; so a step is the same for every `bit_data` when `bit_valid = 0`, and for every `bit_eos` when
`bit_valid = 1`. -/
def Obligations.BitPeekReadsTheBitSource : Prop :=
  (∀ (p : Params) (x : PortIn p),
    (x.bitValid = true → x.peek = .bit x.bitData) ∧
    (x.bitValid = false → x.bitEos = true → x.peek = .eos) ∧
    (x.bitValid = false → x.bitEos = false → x.peek = .wait)) ∧
  ∀ (s : State) (x : Bool),
    (s.now.bitValid = false → step (s.withNow { s.now with bitData := x }) = step s) ∧
    (s.now.bitValid = true → step (s.withNow { s.now with bitEos := x }) = step s)

/-! ### The host commands -/

/-- Rule R123: NOP changes no register and no word of NODE; it completes in every state. -/
def Obligations.NopCompletesAndChangesNothing : Prop :=
  ∀ s : State, ∃ t, exec .nop s = .next t ∧ t.st = s.st ∧ t.code = s.code ∧ t.pos = s.pos ∧
    (∀ a, t.nodeAt a = s.nodeAt a) ∧ t.xfers = s.xfers ++ [.command .nop] ∧ t.inputs = s.inputs.tail

/-- Rule R124: LOAD stores its data word at its address, whatever the word, and changes no other word of NODE and no
register; it completes in every state. -/
def Obligations.LoadStoresItsWordAndNothingElse : Prop :=
  ∀ (a : Index) (d : NodeWord) (s : State), ∃ t, exec (.load a d) s = .next t ∧ t.nodeAt a = d ∧
    (∀ b, b ≠ a → t.nodeAt b = s.nodeAt b) ∧ t.st = s.st ∧ t.code = s.code ∧ t.pos = s.pos ∧
    t.xfers = s.xfers ++ [.command (.load a d)] ∧ t.inputs = s.inputs.tail

/-- Rules R69 (item 2) and R71: in IDLE a LOAD and a START after it complete, and START dispatches on `NODE[0]` as the
LOAD left it, the loaded word if its address is 0. -/
def Obligations.StartSeesTheLoadBeforeIt : Prop :=
  ∀ (a : Index) (d : NodeWord) (s : State), s.st = .idle → ∃ t u, exec (.load a d) s = .next t ∧
    exec .start t = .next u ∧ u.pos = 0#_ ∧ (∀ b, u.nodeAt b = if b = a then d else s.nodeAt b) ∧
    (u.st, u.code) = match kind (if a = 0#_ then d else s.nodeAt 0#_) with
      | .empty => (.done, .emptyInput)
      | .leaf => (.fault, .degenerateTree)
      | .rsvd3 => (.fault, .badNode)
      | .int => (.run, .ok)

/-- Rule R125: START in IDLE sets POS to 0 and dispatches on the kind of `NODE[0]`, changing no word of NODE,
consuming no bit and emitting no symbol. -/
def Obligations.StartInIdleDispatchesOnTheRoot : Prop :=
  ∀ s : State, s.st = .idle → ∃ t, exec .start s = .next t ∧ t.pos = 0#_ ∧
    (kind (s.nodeAt 0#_) = .empty → t.st = .done ∧ t.code = .emptyInput) ∧
    (kind (s.nodeAt 0#_) = .leaf → t.st = .fault ∧ t.code = .degenerateTree) ∧
    (kind (s.nodeAt 0#_) = .rsvd3 → t.st = .fault ∧ t.code = .badNode) ∧
    (kind (s.nodeAt 0#_) = .int → t.st = .run ∧ t.code = .ok) ∧
    (∀ a, t.nodeAt a = s.nodeAt a) ∧ t.xfers = s.xfers ++ [.command .start] ∧ t.inputs = s.inputs.tail

/-- Rule R125, else branch: START in DONE and FAULT is accepted and has no effect. -/
def Obligations.StartOutsideIdleHasNoEffect : Prop :=
  ∀ s : State, s.st = .done ∨ s.st = .fault → ∃ t, exec .start s = .next t ∧ t.st = s.st ∧ t.code = s.code ∧
    t.pos = s.pos ∧ (∀ a, t.nodeAt a = s.nodeAt a) ∧ t.xfers = s.xfers ++ [.command .start] ∧
    t.inputs = s.inputs.tail

/-- Rule R126: CLEAR sets ST, CODE and POS and changes no word of NODE; it completes in every state. -/
def Obligations.ClearReturnsToIdle : Prop :=
  ∀ s : State, ∃ t, exec .clear s = .next t ∧ t.st = .idle ∧ t.code = .ok ∧ t.pos = 0#_ ∧
    (∀ a, t.nodeAt a = s.nodeAt a) ∧ t.xfers = s.xfers ++ [.command .clear] ∧ t.inputs = s.inputs.tail

/-! ### The node kinds -/

/-- Rule R141: INT stalls while the source is silent, faults DECODE_TRUNCATED when it is exhausted, and otherwise
consumes the offered bit and moves to the child it selects, or faults DECODE_NO_CHILD when that child index is 0. -/
def Obligations.IntDescendsByTheOfferedBit : Prop :=
  ∀ (l r : Index) (s : State), ∃ t, exec (.int l r) s = .next t ∧
    (∀ a, t.nodeAt a = s.nodeAt a) ∧ t.inputs = s.inputs.tail ∧
    (s.now.bitValid = false → s.now.bitEos = false →
      t.st = s.st ∧ t.code = s.code ∧ t.pos = s.pos ∧ t.xfers = s.xfers) ∧
    (s.now.bitValid = false → s.now.bitEos = true →
      t.st = .fault ∧ t.code = .decodeTruncated ∧ t.pos = s.pos ∧ t.xfers = s.xfers) ∧
    (s.now.bitValid = true →
      t.xfers = s.xfers ++ [.bit s.now.bitData] ∧
      ((if s.now.bitData then r else l) = 0#_ → t.st = .fault ∧ t.code = .decodeNoChild ∧ t.pos = s.pos) ∧
      ((if s.now.bitData then r else l) ≠ 0#_ →
        t.st = s.st ∧ t.code = s.code ∧ t.pos = if s.now.bitData then r else l))

/-- Rule R142: LEAF stalls while the source is silent or the sink is busy, and otherwise emits its symbol without
consuming a bit, returning to the root if a bit is offered and finishing with OK if the source is exhausted. -/
def Obligations.LeafEmitsItsSymbol : Prop :=
  ∀ (v : Symbol) (s : State), ∃ t, exec (.leaf v) s = .next t ∧
    (∀ a, t.nodeAt a = s.nodeAt a) ∧ t.inputs = s.inputs.tail ∧
    ((s.now.bitValid = false ∧ s.now.bitEos = false) ∨ s.now.symReady = false →
      t.st = s.st ∧ t.code = s.code ∧ t.pos = s.pos ∧ t.xfers = s.xfers) ∧
    (s.now.bitValid = true → s.now.symReady = true →
      t.st = s.st ∧ t.code = s.code ∧ t.pos = 0#_ ∧ t.xfers = s.xfers ++ [.symbol v]) ∧
    (s.now.bitValid = false → s.now.bitEos = true → s.now.symReady = true →
      t.st = .done ∧ t.code = .ok ∧ t.pos = s.pos ∧ t.xfers = s.xfers ++ [.symbol v])

/-- Rule R143: EMPTY always faults with DECODE_NO_CHILD, POS unchanged, with no transfer. -/
def Obligations.EmptyFaultsWithNoChild : Prop :=
  ∀ s : State, ∃ t, exec .empty s = .next t ∧ t.st = .fault ∧ t.code = .decodeNoChild ∧ t.pos = s.pos ∧
    (∀ a, t.nodeAt a = s.nodeAt a) ∧ t.xfers = s.xfers ∧ t.inputs = s.inputs.tail

/-- Rule R144: RSVD3 always faults with BAD_NODE, POS unchanged, with no transfer. -/
def Obligations.ReservedNodeFaultsWithBadNode : Prop :=
  ∀ s : State, ∃ t, exec .rsvd3 s = .next t ∧ t.st = .fault ∧ t.code = .badNode ∧ t.pos = s.pos ∧
    (∀ a, t.nodeAt a = s.nodeAt a) ∧ t.xfers = s.xfers ∧ t.inputs = s.inputs.tail

/-- Rules R24, R28 and R120 to R144, over all eight instructions: no instruction but LOAD changes a word of NODE, and
each makes at most one transfer. -/
def Obligations.InstructionFrame : Prop :=
  ∀ (i : Instr) (s t : State), exec i s = .next t →
    (∀ a, t.nodeAt a ≠ s.nodeAt a → ∃ d, i = .load a d ∧ t.nodeAt a = d) ∧
    ∃ l, t.xfers = s.xfers ++ l ∧ l.length ≤ 1

/-! ### The whole block, one step at a time -/

/-- Rule R146, the rows with ST = RUN, as the table has them: `n = NODE[POS]`, the transfer made and the next ST, CODE
and POS. The premise is the part of the invariant R30 that gives CODE = OK in RUN. -/
def Obligations.WalkStepsFollowTheTransitionTable : Prop :=
  ∀ s : State, s.now.rst = false → s.st = .run → s.codeAgrees → ∃ t, step s = .next t ∧ t.node = s.node ∧
    match kind (s.nodeAt s.pos), s.now.bitValid, s.now.bitEos, s.now.symReady with
    | .int, true, _, _ =>
      t.xfers = s.xfers ++ [.bit s.now.bitData] ∧
      (if (if s.now.bitData then right (s.nodeAt s.pos) else left (s.nodeAt s.pos)) = 0#_ then
        t.st = .fault ∧ t.code = .decodeNoChild ∧ t.pos = s.pos
      else t.st = .run ∧ t.code = .ok ∧
        t.pos = if s.now.bitData then right (s.nodeAt s.pos) else left (s.nodeAt s.pos))
    | .int, false, true, _ => t.xfers = s.xfers ∧ t.st = .fault ∧ t.code = .decodeTruncated ∧ t.pos = s.pos
    | .int, false, false, _ => t.xfers = s.xfers ∧ t.st = .run ∧ t.code = .ok ∧ t.pos = s.pos
    | .leaf, true, _, true =>
      t.xfers = s.xfers ++ [.symbol (sym (s.nodeAt s.pos))] ∧ t.st = .run ∧ t.code = .ok ∧ t.pos = 0#_
    | .leaf, true, _, false => t.xfers = s.xfers ∧ t.st = .run ∧ t.code = .ok ∧ t.pos = s.pos
    | .leaf, false, true, true =>
      t.xfers = s.xfers ++ [.symbol (sym (s.nodeAt s.pos))] ∧ t.st = .done ∧ t.code = .ok ∧ t.pos = s.pos
    | .leaf, false, true, false => t.xfers = s.xfers ∧ t.st = .run ∧ t.code = .ok ∧ t.pos = s.pos
    | .leaf, false, false, _ => t.xfers = s.xfers ∧ t.st = .run ∧ t.code = .ok ∧ t.pos = s.pos
    | .empty, _, _, _ => t.xfers = s.xfers ∧ t.st = .fault ∧ t.code = .decodeNoChild ∧ t.pos = s.pos
    | .rsvd3, _, _, _ => t.xfers = s.xfers ∧ t.st = .fault ∧ t.code = .badNode ∧ t.pos = s.pos

/-- Rules R28, R62, R66 and R68: the transfers of a step are exactly those of the interfaces whose valid and ready are
both 1 in its cycle, with the values the ports carry. -/
def Obligations.TransfersAreTheCompletedHandshakes : Prop :=
  ∀ s t : State, step s = .next t → t.xfers = s.xfers ++
    (if s.now.cmdValid && s.cmdReady then [.command (decodeCommand s.now.cmdWord)] else []) ++
    (if s.now.bitValid && s.bitReady then [.bit s.now.bitData] else []) ++
    (match s.symData with
      | some v => if s.symValid && s.now.symReady then [.symbol v] else []
      | none => [])

/-- Rule R29: `bit_ready` does not depend on any input but `rst`, and `sym_valid` and `sym_data` do not depend on
`sym_ready`, so neither handshake can close a loop through the block; `cmd_ready` depends on state and `rst` only. -/
def Obligations.HandshakesDoNotLoop : Prop :=
  ∀ (s : State) (x : PortIn .defaults), x.rst = s.now.rst →
    (s.withNow x).cmdReady = s.cmdReady ∧ (s.withNow x).bitReady = s.bitReady ∧
    (x.bitValid = s.now.bitValid → x.bitEos = s.now.bitEos →
      (s.withNow x).symValid = s.symValid ∧ (s.withNow x).symData = s.symData)

/-- Rules R21, R22 and R29: `st_o`, `code_o` and `pos_o` show ST, CODE and POS in the encodings of the spec, and
CODE never shows the reserved values 6 and 7. -/
def Obligations.StatusOutputsShowTheRegisters : Prop :=
  ∀ s : State, s.out.posO = s.pos ∧ s.out.codeO.toNat ≤ 5 ∧
    (s.out.stO = match s.st with | .idle => 0b00 | .run => 0b01 | .done => 0b10 | .fault => 0b11) ∧
    (s.out.codeO = match s.code with
      | .ok => 0 | .emptyInput => 1 | .decodeTruncated => 2 | .decodeNoChild => 3 | .degenerateTree => 4
      | .badNode => 5) ∧
    (s.out.stO.getLsbD 1 = true ↔ s.isOver = true)

/-- Rule R26: exactly one of AtInternal, AtLeaf, AtAbsent and AtReserved holds at any time. -/
def Obligations.ExactlyOnePositionPredicateHolds : Prop :=
  ∀ (p : Params) (s : State p),
    [s.atInternal, s.atLeaf, s.atAbsent, s.atReserved].count true = 1

/-- Rule R24: a step that changes a word of NODE accepted a LOAD of that word, outside RUN. -/
def Obligations.OnlyAnAcceptedLoadChangesNode : Prop :=
  ∀ (s t : State) (a : Index), step s = .next t → t.nodeAt a ≠ s.nodeAt a →
    s.now.rst = false ∧ s.st ≠ .run ∧ s.now.cmdValid = true ∧ op s.now.cmdWord = .load ∧
    addr s.now.cmdWord = a ∧ t.nodeAt a = data s.now.cmdWord

/-- Rule R23: POS changes only by the six events of the rule's table. -/
def Obligations.PosChangesOnlyAsListed : Prop :=
  ∀ s t : State, step s = .next t → t.pos ≠ s.pos →
    (s.now.rst = true ∧ t.pos = 0#_) ∨
    (s.now.rst = false ∧ s.st = .idle ∧ s.now.cmdValid = true ∧ op s.now.cmdWord = .start ∧ t.pos = 0#_) ∨
    (s.now.rst = false ∧ s.st ≠ .run ∧ s.now.cmdValid = true ∧ op s.now.cmdWord = .clear ∧ t.pos = 0#_) ∨
    (s.now.rst = false ∧ s.st = .run ∧ kind s.fetch = .int ∧ s.now.bitValid = true ∧ s.now.bitData = false ∧
      left s.fetch ≠ 0#_ ∧ t.pos = left s.fetch) ∨
    (s.now.rst = false ∧ s.st = .run ∧ kind s.fetch = .int ∧ s.now.bitValid = true ∧ s.now.bitData = true ∧
      right s.fetch ≠ 0#_ ∧ t.pos = right s.fetch) ∨
    (s.now.rst = false ∧ s.st = .run ∧ kind s.fetch = .leaf ∧ s.now.bitValid = true ∧ s.now.symReady = true ∧
      t.pos = 0#_)

/-- Rule R200: in DONE and FAULT, ST, CODE and POS hold in every step but a reset step and one that accepts CLEAR,
and those lead to IDLE. -/
def Obligations.ResultHeldUntilClearOrReset : Prop :=
  ∀ s t : State, s.isOver = true → step s = .next t →
    if s.now.rst = true ∨ (s.now.cmdValid = true ∧ op s.now.cmdWord = .clear) then
      t.st = .idle ∧ t.code = .ok ∧ t.pos = 0#_
    else t.st = s.st ∧ t.code = s.code ∧ t.pos = s.pos

/-- Rule R199: a fault of a walk step leaves POS and NODE, emits nothing, and its only transfer, if any, is the bit
that selected an absent child. -/
def Obligations.WalkFaultsArePrecise : Prop :=
  ∀ s t : State, s.st = .run → step s = .next t → t.st = .fault →
    t.pos = s.pos ∧ t.node = s.node ∧
    ((t.xfers = s.xfers ∧ (t.code = .decodeTruncated ∨ t.code = .decodeNoChild ∨ t.code = .badNode)) ∨
      (t.code = .decodeNoChild ∧ kind s.fetch = .int ∧
        ∃ b, t.xfers = s.xfers ++ [.bit b] ∧ childIndex (left s.fetch) (right s.fetch) b = 0#_))

/-- Rule R145: a walk step stalls exactly in the cases the rule lists: then it changes no state; in every other case
it changes ST or makes a transfer. (The rule's "changes ST or POS" does not hold of an INT node that is its own child,
which rule R141 allows: there the bit is consumed and POS keeps its value.) -/
def Obligations.WalkStepStallsExactlyAsListed : Prop :=
  ∀ s t : State, s.now.rst = false → s.st = .run → step s = .next t →
    (s.stalls = true → t.st = s.st ∧ t.code = s.code ∧ t.pos = s.pos ∧ t.node = s.node ∧ t.xfers = s.xfers) ∧
    (s.stalls = false → t.st ≠ s.st ∨ t.xfers ≠ s.xfers)

/-- Rule R67: given the source's duties R63 (a) and (b), an offered symbol that the sink does not take is offered
again, unchanged, in the next cycle. `OfferedSymbolReachesTheSink` follows the offer through a run. -/
def Obligations.OfferedSymbolIsHeld : Prop :=
  ∀ s t : State, step s = .next t → s.symValid = true → s.now.symReady = false → t.now.rst = false →
    s.keepsOffer t.now = true → s.now.keepsEos t.now = true →
    t.symValid = true ∧ t.symData = s.symData

/-! ### Invariants -/

/-- Rule R32: reset leaves ST = IDLE, CODE = OK and POS = 0, and the invariant of rule R30 holds. Two parts of
`State.Inv` are the model's choice: the canonical form of NODE (assumption log 9), and reading from the record of
transfers whether a bit has been consumed since POS was last set to 0 (assumption log 13). -/
def Obligations.ResetEstablishesTheInvariant : Prop :=
  State.reset.st = .idle ∧ State.reset.code = .ok ∧ State.reset.pos = 0#_ ∧ State.reset.Inv

/-- Rule R30: every step keeps the invariant. Two parts of `State.Inv` are the model's choice: the canonical form of
NODE (assumption log 9), and reading from the record of transfers whether a bit has been consumed since POS was last
set to 0 (assumption log 13). -/
def Obligations.StepKeepsTheInvariant : Prop :=
  ∀ s t : State, s.Inv → step s = .next t → t.Inv

/-- The model's choice (assumption log 9), no rule of the spec: NODE is held in a canonical form, and every step keeps it, from any state
whose NODE has it. -/
def Obligations.StepKeepsNodeCanonical : Prop :=
  ∀ s t : State, s.node.wf = true → step s = .next t → t.node.wf = true

/-- What rule R225 says of a sequence of LOADs ("The order of the LOADs among themselves does not matter"), as data:
two writes at different indices commute, a second write at an index replaces the first, and memories with the same
words are equal. The canonical form that makes equal contents equal data is the model's choice (assumption log 9). -/
def Obligations.NodeContentsDetermineTheMemory : Prop :=
  ∀ (p : Params) (m m' : Memory p), m.wf = true → m'.wf = true →
    (∀ (i j : Index p) (v w : NodeWord p), i ≠ j →
      (m.write i.toNat v).write j.toNat w = (m.write j.toNat w).write i.toNat v) ∧
    (∀ (i : Index p) (v w : NodeWord p), (m.write i.toNat v).write i.toNat w = m.write i.toNat w) ∧
    ((∀ a, m.lookup a = m'.lookup a) → m = m')

/-! ### Whole runs -/

/-- Rule R175: `Decode` is total: within `2 * n + 2` passes of its loop it returns, for every node memory, a tree or
not, and every bit sequence. -/
def Obligations.DecodeAlwaysReturns : Prop :=
  ∀ (p : Params) (N : Index p → NodeWord p) (B : List Bool), ∃ r, runDecode N B = some r

/-- Rule R182: which results have consumed every bit, and that none consumes more than there are. -/
def Obligations.BitsLeftInTheSource : Prop :=
  ∀ (p : Params) (N : Index p → NodeWord p) (B : List Bool) (r : Result p), runDecode N B = some r →
    r.taken ≤ B.length ∧
    (r.st = .done ∧ r.code = .ok ∨ r.st = .fault ∧ r.code = .decodeTruncated → r.taken = B.length) ∧
    (kind (N 0#_) ≠ .int → r.taken = 0 ∧ r.syms = [])

/-- Rule R176: a run that finishes gives exactly `Decode` of the node memory it began with and the bits its source
held, whatever the pattern of waiting cycles of the source and busy cycles of the sink. The premise on the source is
the part of rules R60 and R63 that the result needs: what it shows is truthful about the bits it still holds
(assumption log 14). `DutifulRunAgreesAndFinishes` has the rule's own premises. -/
def Obligations.FinishedRunAgreesWithDecode : Prop :=
  ∀ (p : Params) (s t : State p) (B : List Bool) (k : Nat),
    RunInProgress B k s → (coreAt p).run (k + 1) s = .next t → t.isOver = true →
    runDecode s.nodeAt B = some (resultOf s t)

/-- Rules R69 (item 3) and R71: NODE keeps every word from the START step of a run to its last step. -/
def Obligations.NodeIsConstantDuringARun : Prop :=
  ∀ (p : Params) (s u : State p) (B : List Bool) (k j : Nat),
    RunInProgress B k s → j ≤ k + 1 → (coreAt p).run j s = .next u → ∀ a, u.nodeAt a = s.nodeAt a

/-- Rules R175 and R181: at most `2 * n + 2` steps of a run, its START step counted (rule R170), are not stalls. -/
def Obligations.RunHasBoundedBusySteps : Prop :=
  ∀ (p : Params) (s : State p) (B : List Bool) (k : Nat), RunInProgress B k s →
    busySteps (fun j => (coreAt p).run j s) k ≤ 2 * B.length + 2

/-- A special case of rule R181: with a source and a sink that never make the walker wait, which replaces the rule's
fairness here (assumption log 14), a run is over after its START step and at most `2 * n + 2` walk steps.
`FairRunFinishes` has the rule's fairness. -/
def Obligations.PromptRunEnds : Prop :=
  ∀ (p : Params) (s : State p) (B : List Bool), s.offersStart = true →
    (∀ j u, 0 < j → j ≤ 2 * B.length + 3 → (coreAt p).run j s = .next u → u.st = .run →
      u.now.rst = false ∧ u.now.prompt = true ∧
      u.now.peek.truthful (B.drop (bitsOf (xfersSince s u)).length) = true) →
    ∃ j u, 0 < j ∧ j ≤ 2 * B.length + 3 ∧ (coreAt p).run j s = .next u ∧ u.isOver = true

/-- Rule R176, both parts, for an environment that drives the ports with any sequence `f` for ever: a run whose source
keeps duties (a), (b), (c) and (e) of rule R63 while holding `B` gives, if it finishes, exactly `Decode` of the node
memory it began with and `B`, whatever the pattern of waits; and it does finish if the source also keeps duty (d), the
sink eventually accepts (rule R67), and no reset abandons it (rule R170). -/
def Obligations.DutifulRunAgreesAndFinishes : Prop :=
  ∀ (p : Params) (f : Nat → PortIn p) (s : State p) (B : List Bool), (s.withNow (f 0)).offersStart = true →
    SourceDuties B f s →
    (∀ k t, RunFinishes f s k t → runDecode s.nodeAt B = some (resultOf s t)) ∧
    (SourceSpeaks f s → SinkAccepts f s → NotAbandoned f s → ∃ k t, RunFinishes f s k t)

/-- Rule R181: in an environment that drives the ports for ever with any `f` that meets the two fairness assumptions
R63 (d) and R67, a run on a finite source takes finitely many steps, of which at most `2 * n + 2`, the START step
counted, are not stalls. The source need only be truthful about its bits (rule R60, assumption log 14), which is less
than its other duties. -/
def Obligations.FairRunFinishes : Prop :=
  ∀ (p : Params) (f : Nat → PortIn p) (s : State p) (B : List Bool), (s.withNow (f 0)).offersStart = true →
    SourceTruthful B f s → SourceSpeaks f s → SinkAccepts f s → NotAbandoned f s →
    ∃ k t, RunFinishes f s (k + 1) t ∧ busySteps (fun j => drive j f s) k ≤ 2 * B.length + 2

/-- Rule R181, last sentence: on a proper tree, a source that never reports `eos` gives a run that never ends,
whatever else the source and the sink do. -/
def Obligations.RunWithoutEosNeverEnds : Prop :=
  ∀ (p : Params) (f : Nat → PortIn p) (s : State p), (s.withNow (f 0)).offersStart = true → ProperTree s.nodeAt →
    NotAbandoned f s → (∀ j u, InRun f s j u → (f j).peek ≠ .eos) → ∀ j, 0 < j → ∃ u, InRun f s j u

/-- Rule R181, without fairness: a run at an INT or LEAF word whose source is silent in every coming cycle, or at a
LEAF word whose sink is busy in every coming cycle, stays in RUN for ever, with nothing changed; a reset step ends
it. -/
def Obligations.UnfairRunStaysInRun : Prop :=
  ∀ (p : Params) (s : State p), s.st = .run → kind s.fetch = .int ∨ kind s.fetch = .leaf →
    (∀ x ∈ s.inputs, x.rst = false ∧ (x.peek = .wait ∨ (kind s.fetch = .leaf ∧ x.symReady = false))) →
    ∀ k, ∃ u, (coreAt p).run k s = .next u ∧ u.st = .run ∧ u.code = s.code ∧ u.pos = s.pos ∧ u.node = s.node ∧
      u.xfers = s.xfers ∧
      ∀ x : PortIn p, x.rst = true → ∃ v, stepAt (u.withNow x) = .next v ∧ v.st = .idle

/-- Rule R67 through a run, for any sequence `f` of inputs: given the source's duties (rule R63) and a sink that
eventually accepts, a symbol offered in some cycle of a run is offered, unchanged, in every cycle up to one in which
the sink takes it. -/
def Obligations.OfferedSymbolReachesTheSink : Prop :=
  ∀ (p : Params) (f : Nat → PortIn p) (s u : State p) (B : List Bool) (j : Nat) (v : Symbol p),
    (s.withNow (f 0)).offersStart = true → SourceDuties B f s → SinkAccepts f s → NotAbandoned f s →
    InRun f s j u → u.symData = some v →
    ∃ k w, j ≤ k ∧ InRun f s k w ∧ w.putsSymbol = true ∧
      ∀ i x, j ≤ i → i ≤ k → drive i f s = .next x → x.symValid = true ∧ x.symData = some v ∧ x.xfers = u.xfers

/-- Rule R178, second part: on a proper tree DECODE_NO_CHILD and BAD_NODE cannot occur, and the only fault is
DECODE_TRUNCATED. -/
def Obligations.ProperTreeFaultsOnlyByTruncation : Prop :=
  ∀ (p : Params) (N : Index p → NodeWord p) (B : List Bool) (r : Result p), ProperTree N → runDecode N B = some r →
    (r.st = .done ∧ r.code = .ok) ∨ (r.st = .fault ∧ r.code = .decodeTruncated)

/-- Rule R178, first part: on a proper tree whose leaf paths have at most `h` bits, every `h` bits lead from the root
to a leaf after at most `h` of them. -/
def Obligations.ProperTreeReachesALeafWithinItsHeight : Prop :=
  ∀ (p : Params) (N : Index p → NodeWord p) (h : Nat), ProperTree N →
    (∀ bs x, IsLeafPath N bs x → bs.length ≤ h) →
    ∀ B : List Bool, B.length = h → ∃ n x, n ≤ h ∧ IsLeafPath N (B.take n) x

/-- Rule R179: on a proper tree, the concatenated paths of one or more leaves decode to those leaves' symbols, with
every bit consumed and a normal end at the last leaf; the empty stream gives DECODE_TRUNCATED at the root. -/
def Obligations.ValidEncodingDecodes : Prop :=
  ∀ (p : Params) (N : Index p → NodeWord p), ProperTree N →
    (∀ (first : List Bool × Index p) (rest : List (List Bool × Index p)),
      (∀ e ∈ first :: rest, IsLeafPath N e.1 e.2) →
      runDecode N ((first :: rest).flatMap Prod.fst) =
        some ⟨(first :: rest).map fun e => sym (N e.2), ((first :: rest).flatMap Prod.fst).length, .done, .ok,
          (rest.getLastD first).2⟩) ∧
    runDecode N [] = some ⟨[], 0, .fault, .decodeTruncated, 0#_⟩

/-- Rule R177: two node memories that have the same shape and the same symbols at the leaves, wherever their nodes
stand and whatever their ignored bits and unvisited words are, give the same S, i, ST and CODE for every bit
sequence. `R` relates the nodes that correspond. -/
def Obligations.SameShapeGivesSameResult : Prop :=
  ∀ (p : Params) (N N' : Index p → NodeWord p) (R : Index p → Index p → Prop), R 0#_ 0#_ →
    (∀ x y, R x y → kind (N x) = kind (N' y) ∧ (kind (N x) = .leaf → sym (N x) = sym (N' y)) ∧
      (kind (N x) = .int → ∀ b,
        (childIndex (left (N x)) (right (N x)) b = 0#_ ↔ childIndex (left (N' y)) (right (N' y)) b = 0#_) ∧
        (childIndex (left (N x)) (right (N x)) b ≠ 0#_ →
          R (childIndex (left (N x)) (right (N x)) b) (childIndex (left (N' y)) (right (N' y)) b)))) →
    ∀ (B : List Bool) (r r' : Result p), runDecode N B = some r → runDecode N' B = some r' →
      r.syms = r'.syms ∧ r.taken = r'.taken ∧ r.st = r'.st ∧ r.code = r'.code

/-! ### The assembler -/

/-- Rules R98 to R100: a table that assembles has only symbols that fit and only characters 0 and 1, and its image
fits the node memory. -/
def Obligations.AssembledTableIsSound : Prop :=
  ∀ (p : Params) (rs : List Record) (img : Image p), assemble p rs = .ok img →
    (∀ r ∈ rs, r.symbol < 2 ^ p.symW ∧ ∀ c ∈ r.bits, c = '0' ∨ c = '1') ∧ 0 < img.length ∧
    img.length ≤ 2 ^ p.idxW

/-- Rule R98: in the image of a table the leaves are exactly the records. Each record's bit-string is the path from
index 0 to a LEAF with its symbol, every path to a LEAF is some record's, and no word is reached by two paths. -/
def Obligations.AssembledLeavesAreTheRecords : Prop :=
  ∀ (p : Params) (rs : List Record) (img : Image p), assemble p rs = .ok img →
    (∀ r ∈ rs, ∃ x, IsLeafPath img.nodes r.path x ∧ (sym (img.nodes x)).toNat = r.symbol) ∧
    (∀ bs x, IsLeafPath img.nodes bs x → ∃ r ∈ rs, r.path = bs ∧ r.symbol = (sym (img.nodes x)).toNat) ∧
    ∀ bs cs x, follow img.nodes 0#_ bs = some x → follow img.nodes 0#_ cs = some x → bs = cs

/-- Rules R98 and R101: executing the LOADs that LOADTREE expands to leaves NODE holding the image, changes no word
beyond it, and changes no register. -/
def Obligations.LoadingAnImageStoresIt : Prop :=
  ∀ (p : Params) (img : Image p) (s : State p), img.length ≤ 2 ^ p.idxW →
    ∃ t, execAll (loadsFrom 0 img) s = .next t ∧ t.st = s.st ∧ t.code = s.code ∧ t.pos = s.pos ∧
      ∀ a : Index p, t.nodeAt a = img.getD a.toNat (s.nodeAt a)
end

