-- ==== Sys2Proof/Laws/Decode.lean ====
section
/-! SUPPORT. What each field of a packed word is (rules R81 to R85, R87, R88), at any parameters. -/

namespace Sys2Proof

variable {p : Params}

@[simp] theorem kindBits_packNode (k : BitVec 2) (x : BitVec p.payloadW) : kindBits (packNode k x) = k := by
  unfold kindBits packNode
  ext i hi
  have h1 : ¬ p.payloadW + i < p.payloadW := by omega
  rw [BitVec.getElem_extractLsb', BitVec.getLsbD_append]
  simp only [h1, if_false, Nat.add_sub_cancel_left]
  exact BitVec.getLsbD_eq_getElem hi

@[simp] theorem kind_packNode (k : BitVec 2) (x : BitVec p.payloadW) : kind (packNode k x) = kindOfBits k := by
  rw [kind, kindBits_packNode]

@[simp] theorem right_packNode (k : BitVec 2) (l r : Index p) : right (packNode k (childPayload l r)) = r := by
  unfold right packNode childPayload
  ext i hi
  simp [BitVec.getElem_extractLsb', BitVec.getLsbD_append, hi, show i < p.payloadW by unfold Params.payloadW; omega]

@[simp] theorem left_packNode (k : BitVec 2) (l r : Index p) : left (packNode k (childPayload l r)) = l := by
  unfold left packNode childPayload
  ext i hi
  simp [BitVec.getElem_extractLsb', BitVec.getLsbD_append, hi,
    show p.idxW + i < p.payloadW by unfold Params.payloadW; omega]

@[simp] theorem sym_packNode (k : BitVec 2) (s : Symbol p) : sym (packNode k (s.setWidth p.payloadW)) = s := by
  unfold sym packNode
  ext i hi
  simp [BitVec.getElem_extractLsb', BitVec.getLsbD_append, hi, show i < p.payloadW by unfold Params.payloadW; omega]

@[simp] theorem opBits_packCommand (o : BitVec 2) (a : Index p) (d : NodeWord p) :
    opBits (packCommand o a d) = o := by
  unfold opBits packCommand
  ext i hi
  have h1 : ¬ p.idxW + p.nodeW + i < p.nodeW := by omega
  have h2 : p.idxW + p.nodeW + i - p.nodeW = p.idxW + i := by omega
  have h3 : ¬ p.idxW + i < p.idxW := by omega
  rw [BitVec.getElem_extractLsb', BitVec.getLsbD_append]
  simp only [h1, if_false, h2]
  rw [BitVec.getLsbD_append]
  simp only [h3, if_false, Nat.add_sub_cancel_left]
  exact BitVec.getLsbD_eq_getElem hi

@[simp] theorem op_packCommand (o : BitVec 2) (a : Index p) (d : NodeWord p) :
    op (packCommand o a d) = opOfBits o := by
  rw [op, opBits_packCommand]

@[simp] theorem addr_packCommand (o : BitVec 2) (a : Index p) (d : NodeWord p) : addr (packCommand o a d) = a := by
  unfold addr packCommand
  ext i hi
  simp [BitVec.getElem_extractLsb', BitVec.getLsbD_append, hi]

@[simp] theorem data_packCommand (o : BitVec 2) (a : Index p) (d : NodeWord p) : data (packCommand o a d) = d := by
  unfold data packCommand
  ext i hi
  simp [BitVec.getElem_extractLsb', BitVec.getLsbD_append, hi]

/-- A command word is its three fields (rule R87). -/
theorem packCommand_fields (c : CmdWord p) : packCommand (opBits c) (addr c) (data c) = c := by
  unfold packCommand opBits addr data
  ext i hi
  rw [BitVec.getElem_append]
  split
  · rw [BitVec.getElem_extractLsb', ← BitVec.getLsbD_eq_getElem]
    congr 1; omega
  · rw [BitVec.getElem_append]
    split
    · rw [BitVec.getElem_extractLsb', ← BitVec.getLsbD_eq_getElem]
      congr 1; omega
    · rw [BitVec.getElem_extractLsb', ← BitVec.getLsbD_eq_getElem]
      congr 1; omega

/-- The two bits of a kind determine it. -/
theorem kindOfBits_injective {a b : BitVec 2} (h : kindOfBits a = kindOfBits b) : a = b := by
  revert h; revert a b; decide

/-- The two bits of an op determine it. -/
theorem opOfBits_injective {a b : BitVec 2} (h : opOfBits a = opOfBits b) : a = b := by
  revert h; revert a b; decide

end Sys2Proof
end

