-- ==== Sys2Proof/Laws/Assembler.lean ====
section
/-! SUPPORT. The fields of the words the assembler writes, the words of an image, and paths one bit longer. -/

namespace Sys2Proof.Machine

variable {p : Params}

/-! ### The words of rule R95 -/

@[simp] theorem kind_leafWord (s : Symbol p) : kind (leafWord s) = .leaf := kind_packNode _ _
@[simp] theorem sym_leafWord (s : Symbol p) : sym (leafWord s) = s := sym_packNode _ _
@[simp] theorem kind_intWord (l r : Index p) : kind (intWord l r) = .int := kind_packNode _ _
@[simp] theorem left_intWord (l r : Index p) : left (intWord l r) = l := left_packNode _ _ _
@[simp] theorem right_intWord (l r : Index p) : right (intWord l r) = r := right_packNode _ _ _
@[simp] theorem kind_emptyWord : kind (emptyWord : NodeWord p) = .empty := kind_packNode _ _

/-! ### The words of an image -/

theorem Image.nodes_eq_at (img : Image p) (i : Index p) : img.nodes i = img.at i.toNat := rfl

@[simp] theorem Image.setChild_length (img : Image p) (c : Nat) (b : Bool) (i : Nat) :
    (img.setChild c b i).length = img.length := by
  unfold Image.setChild; split <;> simp

/-- Setting a child of a word leaves every other word. -/
theorem Image.setChild_at_ne (img : Image p) {c i : Nat} (b : Bool) (j : Nat) (h : i ≠ c) :
    (img.setChild c b j).at i = img.at i := by
  unfold Image.setChild Image.at; split <;> simp [List.getD_eq_getElem?_getD, List.getElem?_set_ne h.symm]

/-- The word whose child is set is an INT word with that child and its other child as before. -/
theorem Image.setChild_at_self (img : Image p) {c : Nat} (b : Bool) (j : Nat) (h : c < img.length) :
    (img.setChild c b j).at c =
      if b then intWord (left (img.at c)) (BitVec.ofNat _ j) else intWord (BitVec.ofNat _ j) (right (img.at c)) := by
  cases b <;> simp [Image.setChild, Image.at, List.getD_eq_getElem?_getD, h]

/-! ### Paths -/

/-- A path that goes on, from where its first part leads. -/
theorem follow_append (N : Index p → NodeWord p) {as : List Bool} (bs : List Bool) {i x : Index p}
    (h : follow N i as = some x) : follow N i (as ++ bs) = follow N x bs := by
  induction as generalizing i with
  | nil => simp only [follow, Option.some.injEq] at h; rw [h]; rfl
  | cons a as ih =>
    simp only [follow, List.cons_append] at h ⊢
    cases hk : kind (N i) <;> simp only [hk] at h ⊢ <;> try cases h
    split at h
    · cases h
    · rename_i hc; simp only [hc, if_false]; exact ih h

/-- No path goes on where its first part leads nowhere. -/
theorem follow_append_none (N : Index p → NodeWord p) {as : List Bool} (bs : List Bool) {i : Index p}
    (h : follow N i as = none) : follow N i (as ++ bs) = none := by
  induction as generalizing i with
  | nil => cases h
  | cons a as ih =>
    simp only [follow, List.cons_append] at h ⊢
    cases hk : kind (N i) <;> simp only [hk] at h ⊢
    split at h
    · rename_i hc; simp only [hc, if_true]
    · rename_i hc; simp only [hc, if_false]; exact ih h

end Sys2Proof.Machine
end

