-- ==== Sys2Proof/Laws/State.lean ====
section
/-! SUPPORT. For each named operation on the state, the value of every field after it: one lemma per field, true by
`rfl`, so that no proof unfolds a record update. -/

namespace Sys2Proof.Machine

variable {p : Params} (s : State p)

/-! ### `tick` -/

@[simp] theorem State.tick_st : s.tick.st = s.st := rfl
@[simp] theorem State.tick_code : s.tick.code = s.code := rfl
@[simp] theorem State.tick_pos : s.tick.pos = s.pos := rfl
@[simp] theorem State.tick_node : s.tick.node = s.node := rfl
@[simp] theorem State.tick_inputs : s.tick.inputs = s.inputs.tail := rfl
@[simp] theorem State.tick_xfers : s.tick.xfers = s.xfers := rfl
@[simp] theorem State.tick_nodeAt (a : Index p) : s.tick.nodeAt a = s.nodeAt a := rfl

/-! ### `withNow` -/

@[simp] theorem State.withNow_st (x : PortIn p) : (s.withNow x).st = s.st := rfl
@[simp] theorem State.withNow_code (x : PortIn p) : (s.withNow x).code = s.code := rfl
@[simp] theorem State.withNow_pos (x : PortIn p) : (s.withNow x).pos = s.pos := rfl
@[simp] theorem State.withNow_node (x : PortIn p) : (s.withNow x).node = s.node := rfl
@[simp] theorem State.withNow_inputs (x : PortIn p) : (s.withNow x).inputs = x :: s.inputs.tail := rfl
@[simp] theorem State.withNow_xfers (x : PortIn p) : (s.withNow x).xfers = s.xfers := rfl
@[simp] theorem State.withNow_now (x : PortIn p) : (s.withNow x).now = x := rfl
@[simp] theorem State.withNow_nodeAt (x : PortIn p) (a : Index p) : (s.withNow x).nodeAt a = s.nodeAt a := rfl

/-! ### `accept` -/

@[simp] theorem State.accept_st (i : Instr p) : (s.accept i).st = s.st := rfl
@[simp] theorem State.accept_code (i : Instr p) : (s.accept i).code = s.code := rfl
@[simp] theorem State.accept_pos (i : Instr p) : (s.accept i).pos = s.pos := rfl
@[simp] theorem State.accept_node (i : Instr p) : (s.accept i).node = s.node := rfl
@[simp] theorem State.accept_inputs (i : Instr p) : (s.accept i).inputs = s.inputs := rfl
@[simp] theorem State.accept_xfers (i : Instr p) : (s.accept i).xfers = s.xfers ++ [.command i] := rfl
@[simp] theorem State.accept_now (i : Instr p) : (s.accept i).now = s.now := rfl
@[simp] theorem State.accept_nodeAt (i : Instr p) (a : Index p) : (s.accept i).nodeAt a = s.nodeAt a := rfl

/-! ### `bitTake` -/

@[simp] theorem State.bitTake_st (b : Bool) : (s.bitTake b).st = s.st := rfl
@[simp] theorem State.bitTake_code (b : Bool) : (s.bitTake b).code = s.code := rfl
@[simp] theorem State.bitTake_pos (b : Bool) : (s.bitTake b).pos = s.pos := rfl
@[simp] theorem State.bitTake_node (b : Bool) : (s.bitTake b).node = s.node := rfl
@[simp] theorem State.bitTake_inputs (b : Bool) : (s.bitTake b).inputs = s.inputs := rfl
@[simp] theorem State.bitTake_xfers (b : Bool) : (s.bitTake b).xfers = s.xfers ++ [.bit b] := rfl
@[simp] theorem State.bitTake_now (b : Bool) : (s.bitTake b).now = s.now := rfl
@[simp] theorem State.bitTake_nodeAt (b : Bool) (a : Index p) : (s.bitTake b).nodeAt a = s.nodeAt a := rfl

/-! ### `symPut` -/

@[simp] theorem State.symPut_st (v : Symbol p) : (s.symPut v).st = s.st := rfl
@[simp] theorem State.symPut_code (v : Symbol p) : (s.symPut v).code = s.code := rfl
@[simp] theorem State.symPut_pos (v : Symbol p) : (s.symPut v).pos = s.pos := rfl
@[simp] theorem State.symPut_node (v : Symbol p) : (s.symPut v).node = s.node := rfl
@[simp] theorem State.symPut_inputs (v : Symbol p) : (s.symPut v).inputs = s.inputs := rfl
@[simp] theorem State.symPut_xfers (v : Symbol p) : (s.symPut v).xfers = s.xfers ++ [.symbol v] := rfl
@[simp] theorem State.symPut_now (v : Symbol p) : (s.symPut v).now = s.now := rfl
@[simp] theorem State.symPut_nodeAt (v : Symbol p) (a : Index p) : (s.symPut v).nodeAt a = s.nodeAt a := rfl

/-! ### `moveTo` -/

@[simp] theorem State.moveTo_st (c : Index p) : (s.moveTo c).st = s.st := rfl
@[simp] theorem State.moveTo_code (c : Index p) : (s.moveTo c).code = s.code := rfl
@[simp] theorem State.moveTo_pos (c : Index p) : (s.moveTo c).pos = c := rfl
@[simp] theorem State.moveTo_node (c : Index p) : (s.moveTo c).node = s.node := rfl
@[simp] theorem State.moveTo_inputs (c : Index p) : (s.moveTo c).inputs = s.inputs := rfl
@[simp] theorem State.moveTo_xfers (c : Index p) : (s.moveTo c).xfers = s.xfers := rfl
@[simp] theorem State.moveTo_now (c : Index p) : (s.moveTo c).now = s.now := rfl
@[simp] theorem State.moveTo_nodeAt (c : Index p) (a : Index p) : (s.moveTo c).nodeAt a = s.nodeAt a := rfl

/-! ### `beginRun` -/

@[simp] theorem State.beginRun_st : s.beginRun.st = .run := rfl
@[simp] theorem State.beginRun_code : s.beginRun.code = .ok := rfl
@[simp] theorem State.beginRun_pos : s.beginRun.pos = s.pos := rfl
@[simp] theorem State.beginRun_node : s.beginRun.node = s.node := rfl
@[simp] theorem State.beginRun_inputs : s.beginRun.inputs = s.inputs := rfl
@[simp] theorem State.beginRun_xfers : s.beginRun.xfers = s.xfers := rfl
@[simp] theorem State.beginRun_now : s.beginRun.now = s.now := rfl
@[simp] theorem State.beginRun_nodeAt (a : Index p) : s.beginRun.nodeAt a = s.nodeAt a := rfl

/-! ### `finish` -/

@[simp] theorem State.finish_st (k : Code) : (s.finish k).st = .done := rfl
@[simp] theorem State.finish_code (k : Code) : (s.finish k).code = k := rfl
@[simp] theorem State.finish_pos (k : Code) : (s.finish k).pos = s.pos := rfl
@[simp] theorem State.finish_node (k : Code) : (s.finish k).node = s.node := rfl
@[simp] theorem State.finish_inputs (k : Code) : (s.finish k).inputs = s.inputs := rfl
@[simp] theorem State.finish_xfers (k : Code) : (s.finish k).xfers = s.xfers := rfl
@[simp] theorem State.finish_now (k : Code) : (s.finish k).now = s.now := rfl
@[simp] theorem State.finish_nodeAt (k : Code) (a : Index p) : (s.finish k).nodeAt a = s.nodeAt a := rfl

/-! ### `raiseFault` -/

@[simp] theorem State.raiseFault_st (k : Code) : (s.raiseFault k).st = .fault := rfl
@[simp] theorem State.raiseFault_code (k : Code) : (s.raiseFault k).code = k := rfl
@[simp] theorem State.raiseFault_pos (k : Code) : (s.raiseFault k).pos = s.pos := rfl
@[simp] theorem State.raiseFault_node (k : Code) : (s.raiseFault k).node = s.node := rfl
@[simp] theorem State.raiseFault_inputs (k : Code) : (s.raiseFault k).inputs = s.inputs := rfl
@[simp] theorem State.raiseFault_xfers (k : Code) : (s.raiseFault k).xfers = s.xfers := rfl
@[simp] theorem State.raiseFault_now (k : Code) : (s.raiseFault k).now = s.now := rfl
@[simp] theorem State.raiseFault_nodeAt (k : Code) (a : Index p) : (s.raiseFault k).nodeAt a = s.nodeAt a := rfl

/-! ### `toIdle` -/

@[simp] theorem State.toIdle_st : s.toIdle.st = .idle := rfl
@[simp] theorem State.toIdle_code : s.toIdle.code = .ok := rfl
@[simp] theorem State.toIdle_pos : s.toIdle.pos = 0#p.idxW := rfl
@[simp] theorem State.toIdle_node : s.toIdle.node = s.node := rfl
@[simp] theorem State.toIdle_inputs : s.toIdle.inputs = s.inputs := rfl
@[simp] theorem State.toIdle_xfers : s.toIdle.xfers = s.xfers := rfl
@[simp] theorem State.toIdle_now : s.toIdle.now = s.now := rfl
@[simp] theorem State.toIdle_nodeAt (a : Index p) : s.toIdle.nodeAt a = s.nodeAt a := rfl

/-! ### `setNode` -/

@[simp] theorem State.setNode_st (i : Index p) (v : NodeWord p) : (s.setNode i v).st = s.st := rfl
@[simp] theorem State.setNode_code (i : Index p) (v : NodeWord p) : (s.setNode i v).code = s.code := rfl
@[simp] theorem State.setNode_pos (i : Index p) (v : NodeWord p) : (s.setNode i v).pos = s.pos := rfl
@[simp] theorem State.setNode_node (i : Index p) (v : NodeWord p) : (s.setNode i v).node = s.node.write i.toNat v := rfl
@[simp] theorem State.setNode_inputs (i : Index p) (v : NodeWord p) : (s.setNode i v).inputs = s.inputs := rfl
@[simp] theorem State.setNode_xfers (i : Index p) (v : NodeWord p) : (s.setNode i v).xfers = s.xfers := rfl
@[simp] theorem State.setNode_now (i : Index p) (v : NodeWord p) : (s.setNode i v).now = s.now := rfl

/-! ### The reset state -/

@[simp] theorem State.resetAt_st : (State.resetAt p).st = .idle := rfl
@[simp] theorem State.resetAt_code : (State.resetAt p).code = .ok := rfl
@[simp] theorem State.resetAt_pos : (State.resetAt p).pos = 0#p.idxW := rfl
@[simp] theorem State.resetAt_node : (State.resetAt p).node = [] := rfl
@[simp] theorem State.resetAt_inputs : (State.resetAt p).inputs = [] := rfl
@[simp] theorem State.resetAt_xfers : (State.resetAt p).xfers = [] := rfl

end Sys2Proof.Machine
end

