-- ==== Sys2Proof/Laws/Memory.lean ====
section
/-! SUPPORT. The laws of the node memory: a read after a write, and that writing keeps the canonical form. -/

namespace Sys2Proof.Machine

variable {p : Params}

@[simp] theorem Memory.lookup_nil (a : Nat) : Memory.lookup ([] : Memory p) a = none := rfl

/-- A read after a write: the word written at its own index, what was there at every other. -/
theorem Memory.lookup_write (m : Memory p) (a b : Nat) (v : NodeWord p) :
    (Memory.write m a v).lookup b = if b = a then some v else m.lookup b := by
  induction m with
  | nil => simp [Memory.write, Memory.lookup]
  | cons e m ih =>
    obtain ⟨c, w⟩ := e
    by_cases h1 : a < c
    · simp [Memory.write, h1, Memory.lookup]
    · by_cases h2 : a = c
      · subst h2
        by_cases h3 : b = a <;> simp [Memory.write, Memory.lookup, h3]
      · simp only [Memory.write, h1, h2, if_false, Memory.lookup, ih]
        by_cases h3 : b = c
        · subst h3
          have : b ≠ a := Ne.symm h2
          simp [this]
        · simp [h3]

/-- `NODE[i] <- v` changes the word at `i` and no other. -/
@[simp] theorem State.setNode_nodeAt (s : State p) (i a : Index p) (v : NodeWord p) :
    (s.setNode i v).nodeAt a = if a = i then v else s.nodeAt a := by
  unfold State.nodeAt
  rw [State.setNode_node, Memory.lookup_write]
  by_cases h : a = i
  · simp [h]
  · have : a.toNat ≠ i.toNat := fun e => h (BitVec.eq_of_toNat_eq e)
    simp [h, this]

theorem Memory.sortedFrom_mono {m : Memory p} {lo lo' : Nat} (h : Memory.sortedFrom lo m = true) (hl : lo' ≤ lo) :
    Memory.sortedFrom lo' m = true := by
  cases m with
  | nil => rfl
  | cons e m =>
    obtain ⟨a, w⟩ := e
    simp only [Memory.sortedFrom, Bool.and_eq_true, decide_eq_true_eq] at h ⊢
    exact ⟨⟨by omega, h.1.2⟩, h.2⟩

/-- Writing at an index from `lo` upward keeps a memory sorted from `lo`. -/
theorem Memory.sortedFrom_write {m : Memory p} {lo a : Nat} (v : NodeWord p) (h : Memory.sortedFrom lo m = true)
    (hl : lo ≤ a) (ha : a < 2 ^ p.idxW) : Memory.sortedFrom lo (m.write a v) = true := by
  induction m generalizing lo with
  | nil => simp [Memory.write, Memory.sortedFrom, hl, ha]
  | cons e m ih =>
    obtain ⟨b, w⟩ := e
    simp only [Memory.sortedFrom, Bool.and_eq_true, decide_eq_true_eq] at h
    by_cases h1 : a < b
    · simp only [Memory.write, h1, if_true, Memory.sortedFrom, Bool.and_eq_true, decide_eq_true_eq]
      exact ⟨⟨hl, ha⟩, ⟨by omega, h.1.2⟩, h.2⟩
    · by_cases h2 : a = b
      · subst h2
        simp only [Memory.write, lt_irrefl, if_false, if_true, Memory.sortedFrom, Bool.and_eq_true,
          decide_eq_true_eq]
        exact ⟨⟨hl, ha⟩, h.2⟩
      · simp only [Memory.write, h1, h2, if_false, Memory.sortedFrom, Bool.and_eq_true, decide_eq_true_eq]
        exact ⟨h.1, ih h.2 (by omega)⟩

/-- A LOAD keeps the canonical form of NODE. -/
theorem State.setNode_wf {s : State p} (h : s.node.wf = true) (i : Index p) (v : NodeWord p) :
    (s.setNode i v).node.wf = true :=
  Memory.sortedFrom_write v h (Nat.zero_le _) i.isLt

theorem State.resetAt_wf : (State.resetAt p).node.wf = true := rfl

end Sys2Proof.Machine
end

