-- ==== Sys2Proof/Laws/Machine.lean ====
section
/-! SUPPORT. What each shared operation and each step can do, said once: later proofs cite these lemmas instead of
unfolding the definitions. -/

namespace Sys2Proof.Machine

variable {p : Params}

/-! ### The dispatch and the step at the default parameters -/

/-- The host's dispatch is the generic one at the default parameters. -/
theorem exec_eq_execAt (i : Instr) (s : State) : exec i s = execAt i s := by
  cases i <;> rfl

/-- The host's step is the generic one at the default parameters. -/
theorem step_eq_stepAt (s : State) : step s = stepAt s := by
  unfold step stepAt cycle
  simp only [exec_eq_execAt]

/-! ### The effect of an instruction, before the clock edge -/

/-- The state an instruction leaves, before the next cycle's inputs become current. -/
def effect (i : Instr p) (s : State p) : State p :=
  match i with
  | .nop => s.accept .nop
  | .load a d => (s.accept (.load a d)).setNode a d
  | .start => (s.accept .start).startRun
  | .clear => (s.accept .clear).toIdle
  | .empty => s.raiseFault .decodeNoChild
  | .int l r => s.walkInt l r
  | .leaf v => s.walkLeaf v
  | .rsvd3 => s.raiseFault .badNode

/-- Every instruction answers a next state in every state. -/
theorem execAt_eq (i : Instr p) (s : State p) : execAt i s = .next (effect i s).tick := by
  cases i <;> rfl

/-- The next state of a step. -/
def stepNext (s : State p) : State p :=
  if s.now.rst then s.toIdle.tick
  else if s.st = .run then (effect (decodeNode s.fetch) s).tick
  else if s.now.cmdValid then (effect (decodeCommand s.now.cmdWord) s).tick
  else s.tick

/-- Every step answers a next state. -/
theorem stepAt_eq (s : State p) : stepAt s = .next (stepNext s) := by
  unfold stepAt cycle stepNext
  simp only [execAt_eq, State.resetStep]
  split
  · rfl
  · split
    · rfl
    · split <;> rfl

theorem step_eq (s : State) : step s = .next (stepNext s) := by
  rw [step_eq_stepAt, stepAt_eq]

/-- What a step can be: a reset step, a walk step at a node of one of the four kinds, a command step with one of the
four commands, or a cycle in which no command is offered. -/
theorem stepNext_cases (s : State p) :
    (s.now.rst = true ∧ stepNext s = s.toIdle.tick) ∨
    (s.now.rst = false ∧ s.st = .run ∧ kind s.fetch = .empty ∧ stepNext s = (s.raiseFault .decodeNoChild).tick) ∨
    (s.now.rst = false ∧ s.st = .run ∧ kind s.fetch = .int ∧
      stepNext s = (s.walkInt (left s.fetch) (right s.fetch)).tick) ∨
    (s.now.rst = false ∧ s.st = .run ∧ kind s.fetch = .leaf ∧ stepNext s = (s.walkLeaf (sym s.fetch)).tick) ∨
    (s.now.rst = false ∧ s.st = .run ∧ kind s.fetch = .rsvd3 ∧ stepNext s = (s.raiseFault .badNode).tick) ∨
    (s.now.rst = false ∧ s.st ≠ .run ∧ s.now.cmdValid = false ∧ stepNext s = s.tick) ∨
    (s.now.rst = false ∧ s.st ≠ .run ∧ s.now.cmdValid = true ∧ op s.now.cmdWord = .nop ∧
      stepNext s = (s.accept .nop).tick) ∨
    (s.now.rst = false ∧ s.st ≠ .run ∧ s.now.cmdValid = true ∧ op s.now.cmdWord = .load ∧
      stepNext s = ((s.accept (.load (addr s.now.cmdWord) (data s.now.cmdWord))).setNode (addr s.now.cmdWord)
        (data s.now.cmdWord)).tick) ∨
    (s.now.rst = false ∧ s.st ≠ .run ∧ s.now.cmdValid = true ∧ op s.now.cmdWord = .start ∧
      stepNext s = (s.accept .start).startRun.tick) ∨
    (s.now.rst = false ∧ s.st ≠ .run ∧ s.now.cmdValid = true ∧ op s.now.cmdWord = .clear ∧
      stepNext s = (s.accept .clear).toIdle.tick) := by
  unfold stepNext
  cases hr : s.now.rst
  · by_cases hs : s.st = .run
    · cases hk : kind s.fetch <;> simp [hs, hk, decodeNode, effect]
    · cases hv : s.now.cmdValid
      · simp [hs]
      · cases ho : op s.now.cmdWord <;> simp [hs, ho, decodeCommand, effect]
  · simp

/-! ### What the walk of an INT node can do (rule R141) -/

theorem State.walkInt_cases (s : State p) (l r : Index p) :
    (s.now.peek = .wait ∧ s.walkInt l r = s) ∨
    (s.now.peek = .eos ∧ s.walkInt l r = s.raiseFault .decodeTruncated) ∨
    (∃ b, s.now.peek = .bit b ∧ childIndex l r b = 0#p.idxW ∧ s.walkInt l r = (s.bitTake b).raiseFault .decodeNoChild) ∨
    (∃ b, s.now.peek = .bit b ∧ childIndex l r b ≠ 0#p.idxW ∧
      s.walkInt l r = (s.bitTake b).moveTo (childIndex l r b)) := by
  unfold State.walkInt State.descend
  cases s.now.peek with
  | wait => simp
  | eos => simp
  | bit b => by_cases h : childIndex l r b = 0#p.idxW <;> simp [h]

/-! ### What the walk of a LEAF node can do (rule R142) -/

theorem State.walkLeaf_cases (s : State p) (v : Symbol p) :
    ((s.now.peek = .wait ∨ s.now.symReady = false) ∧ s.walkLeaf v = s) ∨
    (∃ b, s.now.peek = .bit b ∧ s.now.symReady = true ∧ s.walkLeaf v = (s.symPut v).moveTo 0#p.idxW) ∨
    (s.now.peek = .eos ∧ s.now.symReady = true ∧ s.walkLeaf v = (s.symPut v).finish .ok) := by
  unfold State.walkLeaf
  cases s.now.peek <;> cases s.now.symReady <;> simp

/-! ### What START can do (rule R125) -/

theorem State.startRun_cases (s : State p) :
    (s.st ≠ .idle ∧ s.startRun = s) ∨
    (s.st = .idle ∧ kind s.root = .empty ∧ s.startRun = (s.moveTo 0#p.idxW).finish .emptyInput) ∨
    (s.st = .idle ∧ kind s.root = .leaf ∧ s.startRun = (s.moveTo 0#p.idxW).raiseFault .degenerateTree) ∨
    (s.st = .idle ∧ kind s.root = .rsvd3 ∧ s.startRun = (s.moveTo 0#p.idxW).raiseFault .badNode) ∨
    (s.st = .idle ∧ kind s.root = .int ∧ s.startRun = (s.moveTo 0#p.idxW).beginRun) := by
  unfold State.startRun
  cases h : s.st <;> cases hk : kind s.root <;> simp

/-! ### Fields that an operation leaves alone -/

@[simp] theorem State.walkInt_node (s : State p) (l r : Index p) : (s.walkInt l r).node = s.node := by
  obtain ⟨-, h⟩ | ⟨-, h⟩ | ⟨b, -, -, h⟩ | ⟨b, -, -, h⟩ := s.walkInt_cases l r <;> simp [h]

@[simp] theorem State.walkInt_inputs (s : State p) (l r : Index p) : (s.walkInt l r).inputs = s.inputs := by
  obtain ⟨-, h⟩ | ⟨-, h⟩ | ⟨b, -, -, h⟩ | ⟨b, -, -, h⟩ := s.walkInt_cases l r <;> simp [h]

@[simp] theorem State.walkLeaf_node (s : State p) (v : Symbol p) : (s.walkLeaf v).node = s.node := by
  obtain ⟨-, h⟩ | ⟨b, -, -, h⟩ | ⟨-, -, h⟩ := s.walkLeaf_cases v <;> simp [h]

@[simp] theorem State.walkLeaf_inputs (s : State p) (v : Symbol p) : (s.walkLeaf v).inputs = s.inputs := by
  obtain ⟨-, h⟩ | ⟨b, -, -, h⟩ | ⟨-, -, h⟩ := s.walkLeaf_cases v <;> simp [h]

@[simp] theorem State.startRun_node (s : State p) : s.startRun.node = s.node := by
  obtain ⟨-, h⟩ | ⟨-, -, h⟩ | ⟨-, -, h⟩ | ⟨-, -, h⟩ | ⟨-, -, h⟩ := s.startRun_cases <;> simp [h]

@[simp] theorem State.startRun_inputs (s : State p) : s.startRun.inputs = s.inputs := by
  obtain ⟨-, h⟩ | ⟨-, -, h⟩ | ⟨-, -, h⟩ | ⟨-, -, h⟩ | ⟨-, -, h⟩ := s.startRun_cases <;> simp [h]

@[simp] theorem State.startRun_xfers (s : State p) : s.startRun.xfers = s.xfers := by
  obtain ⟨-, h⟩ | ⟨-, -, h⟩ | ⟨-, -, h⟩ | ⟨-, -, h⟩ | ⟨-, -, h⟩ := s.startRun_cases <;> simp [h]

/-! ### The bit source as the walker sees it (rule R61) -/

theorem PortIn.peek_wait {x : PortIn p} : x.peek = .wait ↔ x.bitValid = false ∧ x.bitEos = false := by
  unfold PortIn.peek; cases x.bitValid <;> cases x.bitEos <;> simp

theorem PortIn.peek_eos {x : PortIn p} : x.peek = .eos ↔ x.bitValid = false ∧ x.bitEos = true := by
  unfold PortIn.peek; cases x.bitValid <;> cases x.bitEos <;> simp

theorem PortIn.peek_bit {x : PortIn p} {b : Bool} : x.peek = .bit b ↔ x.bitValid = true ∧ x.bitData = b := by
  unfold PortIn.peek; cases x.bitValid <;> cases x.bitEos <;> simp

/-! ### Steps that differ only in this cycle's inputs -/

theorem State.withNow_tick (s : State p) (x : PortIn p) : (s.withNow x).tick = s.tick := rfl

@[simp] theorem State.withNow_fetch (s : State p) (x : PortIn p) : (s.withNow x).fetch = s.fetch := rfl

theorem State.walkInt_withNow {s : State p} {x : PortIn p} (h : x.peek = s.now.peek) (l r : Index p) :
    ((s.withNow x).walkInt l r).tick = (s.walkInt l r).tick := by
  simp only [State.walkInt, State.withNow_now, h]
  cases s.now.peek with
  | wait => rfl
  | eos => rfl
  | bit b => by_cases hc : childIndex l r b = 0#p.idxW <;> simp only [State.descend, hc, if_true, if_false] <;> rfl

theorem State.walkLeaf_withNow {s : State p} {x : PortIn p} (h : x.peek = s.now.peek)
    (hr : x.symReady = s.now.symReady) (v : Symbol p) :
    ((s.withNow x).walkLeaf v).tick = (s.walkLeaf v).tick := by
  simp only [State.walkLeaf, State.withNow_now, h, hr]
  cases s.now.peek <;> cases s.now.symReady <;> rfl

theorem State.startRun_withNow (s : State p) (x : PortIn p) :
    ((s.withNow x).accept .start).startRun.tick = (s.accept .start).startRun.tick := by
  have hr : ((s.withNow x).accept .start).root = s.root := rfl
  have hr' : (s.accept .start).root = s.root := rfl
  simp only [State.startRun, hr, hr', State.accept_st, State.withNow_st]
  cases s.st with
  | idle => cases kind s.root <;> rfl
  | run => rfl
  | done => rfl
  | fault => rfl

/-- A step looks at `rst`, at the command port outside RUN, at the bit source at INT and LEAF, and at `sym_ready` at
LEAF; two states that differ in other inputs only make the same step. -/
theorem stepNext_withNow {s : State p} {x : PortIn p} (hrst : x.rst = s.now.rst)
    (hcmd : s.st ≠ .run → x.cmdValid = s.now.cmdValid ∧ (s.now.cmdValid = true → x.cmdWord = s.now.cmdWord))
    (hpeek : s.st = .run → kind s.fetch = .int ∨ kind s.fetch = .leaf → x.peek = s.now.peek)
    (hsym : s.st = .run → kind s.fetch = .leaf → x.symReady = s.now.symReady) :
    stepNext (s.withNow x) = stepNext s := by
  simp only [stepNext, State.withNow_now, State.withNow_st, State.withNow_fetch, hrst]
  by_cases h1 : s.now.rst = true
  · simp only [h1, if_true]; rfl
  · by_cases h2 : s.st = .run
    · simp only [h1, h2, if_true]
      cases hk : kind s.fetch <;> simp only [decodeNode, hk, effect]
      · rfl
      · exact State.walkInt_withNow (hpeek h2 (.inl hk)) _ _
      · exact State.walkLeaf_withNow (hpeek h2 (.inr hk)) (hsym h2 hk) _
      · rfl
    · obtain ⟨h3, h4⟩ := hcmd h2
      by_cases h5 : s.now.cmdValid = true
      · simp only [h1, h2, h3, h4 h5, h5, if_false, if_true]
        cases ho : op s.now.cmdWord <;> simp only [decodeCommand, ho, effect]
        · rfl
        · rfl
        · exact State.startRun_withNow s x
        · rfl
      · simp only [h1, h2, h3, h5, if_false]; rfl

end Sys2Proof.Machine
end

