-- ==== Sys2Proof/Laws/PerInstr.lean ====
section
/-! SUPPORT. Per instruction: the encoding is a word of the instruction's format whose two top bits are its opcode
(rules R80, R82, R89). -/

namespace Sys2Proof.Laws.Opcode

/-- The encoding of `i` is of its format and carries its opcode. -/
def Statement (i : Instr) : Prop :=
  match encode i with
  | .command c => i.format = .command ∧ opBits c = i.opcode
  | .node w => i.format = .node ∧ kindBits w = i.opcode

theorem nop : Statement .nop := ⟨rfl, opBits_packCommand _ _ _⟩

theorem load (addr : Index) (data : NodeWord) : Statement (.load addr data) := ⟨rfl, opBits_packCommand _ _ _⟩

theorem start : Statement .start := ⟨rfl, opBits_packCommand _ _ _⟩

theorem clear : Statement .clear := ⟨rfl, opBits_packCommand _ _ _⟩

theorem empty : Statement .empty := ⟨rfl, kindBits_packNode _ _⟩

theorem int (left right : Index) : Statement (.int left right) := ⟨rfl, kindBits_packNode _ _⟩

theorem leaf (sym : Symbol) : Statement (.leaf sym) := ⟨rfl, kindBits_packNode _ _⟩

theorem rsvd3 : Statement .rsvd3 := ⟨rfl, kindBits_packNode _ _⟩

end Sys2Proof.Laws.Opcode
end

