-- ==== Sys2Proof/Laws/Run.lean ====
section
/-! SUPPORT. Several steps as a plain iteration, at any parameters; what a run and a walk step in it can be. -/

namespace Sys2Proof.Machine

variable {p : Params}

/-- The state after `k` steps. -/
def stepsFrom : Nat → State p → State p
  | 0, s => s
  | k + 1, s => stepsFrom k (stepNext s)

/-- Running `k` steps answers the state after them: no run stops. -/
theorem run_eq_stepsFrom (k : Nat) (s : State p) : (coreAt p).run k s = .next (stepsFrom k s) := by
  induction k generalizing s with
  | zero => rfl
  | succ k ih => simp only [Host.Core.run, stepsFrom, stepAt_eq]; exact ih _

/-- The last step of a run, split off. -/
theorem stepsFrom_succ (k : Nat) (s : State p) : stepsFrom (k + 1) s = stepNext (stepsFrom k s) := by
  induction k generalizing s with
  | zero => rfl
  | succ k ih => rw [stepsFrom, ih]; rfl

/-! ### Driving the ports -/

/-- The state in cycle `k` of a block whose ports carry `f`. -/
def driven (f : Nat → PortIn p) (s : State p) : Nat → State p
  | 0 => s.withNow (f 0)
  | k + 1 => (stepNext (driven f s k)).withNow (f (k + 1))

/-- The first step of a driven block, split off. -/
theorem driven_succ (f : Nat → PortIn p) (s : State p) (k : Nat) :
    driven f s (k + 1) = driven (fun j => f (j + 1)) (stepNext (s.withNow (f 0))) k := by
  induction k with
  | zero => rfl
  | succ k ih => rw [driven, ih]; rfl

/-- Driving the ports for `k` cycles answers the state in cycle `k`: no step stops. -/
theorem drive_eq (f : Nat → PortIn p) (s : State p) (k : Nat) : drive k f s = .next (driven f s k) := by
  induction k generalizing f s with
  | zero => rfl
  | succ k ih => rw [driven_succ, ← ih]; simp only [drive, stepAt_eq]

@[simp] theorem driven_now (f : Nat → PortIn p) (s : State p) (k : Nat) : (driven f s k).now = f k := by
  cases k <;> rfl

/-- A run is in progress exactly in the cycles up to the last one with ST = RUN. -/
theorem inRun_iff {f : Nat → PortIn p} {s u : State p} {j : Nat} :
    InRun f s j u ↔ 0 < j ∧ driven f s j = u ∧ ∀ i, 0 < i → i ≤ j → (driven f s i).st = .run := by
  simp [InRun, drive_eq]

/-- A run finishes exactly in the first state that is over. -/
theorem runFinishes_iff {f : Nat → PortIn p} {s t : State p} {k : Nat} :
    RunFinishes f s k t ↔ 0 < k ∧ driven f s k = t ∧ t.isOver = true ∧
      ∀ i, 0 < i → i < k → (driven f s i).st = .run := by
  simp [RunFinishes, drive_eq]

/-! ### What a walk step can do (rules R141 to R145) -/

/-- A walk step stalls and only passes the clock edge, or faults, descends, returns to the root, or finishes. -/
theorem walkStep_cases {u : State p} (hrst : u.now.rst = false) (hst : u.st = .run) :
    (u.stalls = true ∧ stepNext u = u.tick) ∨
    (u.stalls = false ∧ kind u.fetch = .empty ∧ stepNext u = (u.raiseFault .decodeNoChild).tick) ∨
    (u.stalls = false ∧ kind u.fetch = .rsvd3 ∧ stepNext u = (u.raiseFault .badNode).tick) ∨
    (u.stalls = false ∧ kind u.fetch = .int ∧ u.now.peek = .eos ∧
      stepNext u = (u.raiseFault .decodeTruncated).tick) ∨
    (∃ b, u.stalls = false ∧ kind u.fetch = .int ∧ u.now.peek = .bit b ∧
      childIndex (left u.fetch) (right u.fetch) b = 0#_ ∧ stepNext u = ((u.bitTake b).raiseFault .decodeNoChild).tick) ∨
    (∃ b, u.stalls = false ∧ kind u.fetch = .int ∧ u.now.peek = .bit b ∧
      childIndex (left u.fetch) (right u.fetch) b ≠ 0#_ ∧
      stepNext u = ((u.bitTake b).moveTo (childIndex (left u.fetch) (right u.fetch) b)).tick) ∨
    (∃ b, u.stalls = false ∧ kind u.fetch = .leaf ∧ u.now.peek = .bit b ∧
      stepNext u = ((u.symPut (sym u.fetch)).moveTo 0#_).tick) ∨
    (u.stalls = false ∧ kind u.fetch = .leaf ∧ u.now.peek = .eos ∧
      stepNext u = ((u.symPut (sym u.fetch)).finish .ok).tick) := by
  rcases stepNext_cases u with h | h | h | h | h | h | h | h | h | h <;> (try simp [hrst] at h) <;> (try simp [hst] at h)
  · simp [h, State.stalls]
  · rcases u.walkInt_cases (left u.fetch) (right u.fetch) with ⟨hp, hw⟩ | ⟨hp, hw⟩ | ⟨b, hp, hc, hw⟩ | ⟨b, hp, hc, hw⟩ <;>
      simp_all [State.stalls]
  · rcases u.walkLeaf_cases (sym u.fetch) with ⟨hp | hp, hw⟩ | ⟨b, hp, hr, hw⟩ | ⟨hp, hr, hw⟩ <;> simp [State.stalls, *]
  · simp [h, State.stalls]

/-- A walk step leaves ST = RUN or ends the run. -/
theorem walkStep_run_or_over {u : State p} (hrst : u.now.rst = false) (hst : u.st = .run) :
    (stepNext u).st = .run ∨ (stepNext u).isOver = true := by
  rcases walkStep_cases hrst hst with ⟨-, h⟩ | ⟨-, -, h⟩ | ⟨-, -, h⟩ | ⟨-, -, -, h⟩ | ⟨b, -, -, -, -, h⟩ |
    ⟨b, -, -, -, -, h⟩ | ⟨b, -, -, -, h⟩ | ⟨-, -, -, h⟩ <;> simp [h, State.isOver, hst]

end Sys2Proof.Machine
end

