-- ==== Sys2Proof/Tests/Slice0.lean ====
section
/-! SUPPORT. Tests, with results from spec/95_test_vectors.md, and a witness for the hypotheses of every statement of
Certificates/Slice0/Obligations.lean that has any. -/

namespace Sys2Proof.Tests

open Sys2Proof.Machine

/-! ### Well-formedness: each check refuses something -/

theorem test_params_wf_accepts_defaults : Params.defaults.wf = true := by decide
theorem test_params_wf_refuses_zero_symW : (Params.mk 0 9).wf = false := by decide
theorem test_params_wf_refuses_zero_idxW : (Params.mk 8 0).wf = false := by decide
theorem test_fits_refuses_a_wide_command : Format.fits .defaults .command (2 ^ 31) = false := by decide
theorem test_fits_refuses_a_wide_node : Format.fits .defaults .node (2 ^ 20) = false := by decide
theorem test_fits_accepts_the_widest :
    Format.fits .defaults .command (2 ^ 31 - 1) = true ∧ Format.fits .defaults .node (2 ^ 20 - 1) = true := by decide
theorem test_memory_wf_refuses_unsorted : Memory.wf (p := .defaults) [(2, 0), (1, 0)] = false := by decide
theorem test_memory_wf_refuses_a_repeat : Memory.wf (p := .defaults) [(1, 0), (1, 5)] = false := by decide
theorem test_memory_wf_refuses_outside : Memory.wf (p := .defaults) [(512, 0)] = false := by decide
theorem test_memory_wf_accepts_the_top : Memory.wf (p := .defaults) [(0, 0), (511, 1)] = true := by decide

/-! ### Decoding: words written out bit by bit (B1) -/

/-- E23, format C: op 01, addr 0, data 01 000000001 000000010. -/
theorem test_decode_load :
    decodeTableWord 32 0b01_000000000_01_000000001_000000010 = some (.load 0 0b01_000000001_000000010) := by decide
/-- E20: NOP with addr and data all ones. -/
theorem test_decode_nop : decodeTableWord 32 0b00_111111111_11111111111111111111 = some .nop := by decide
/-- E21. -/
theorem test_decode_start : decodeTableWord 32 0b10_000000000_00000000000000000000 = some .start := by decide
/-- E30. -/
theorem test_decode_clear : decodeTableWord 32 0b11_111111111_11111111111111111111 = some .clear := by decide
/-- E12. -/
theorem test_decode_empty : decodeTableWord 24 0b00_111111111_111111111 = some .empty := by decide
/-- E3: left 2, right absent. -/
theorem test_decode_int : decodeTableWord 24 0b01_000000010_000000000 = some (.int 2 0) := by decide
/-- E11: LEAF 65 with the ignored bits all ones. -/
theorem test_decode_leaf : decodeTableWord 24 0b10_1111111111_01000001 = some (.leaf 65) := by decide
/-- E10. -/
theorem test_decode_rsvd3 : decodeTableWord 24 0b11_000000000_000000101 = some .rsvd3 := by decide
theorem test_decode_refuses_32_bits : decodeTableWord 32 (2 ^ 31) = none := by decide
theorem test_decode_refuses_21_bits : decodeTableWord 24 (2 ^ 20) = none := by decide
theorem test_decodeRaw_names_the_refusal :
    decodeRaw .defaults .node (2 ^ 20) = .error .notANodeWord ∧
    decodeRaw .defaults .command (2 ^ 31) = .error .notACommandWord := by decide

/-- E1, E5, E8, E9 and E26: the encoder's words. -/
theorem test_encode_defaults :
    encode (p := .defaults) .empty = .node 0x00000 ∧ encode (p := .defaults) (.int 511 511) = .node 0x7FFFF ∧
    encode (p := .defaults) (.leaf 255) = .node 0x800FF ∧ encode (p := .defaults) .rsvd3 = .node 0xC0000 ∧
    encode (p := .defaults) (.load 511 0xC0005) = .command 0x3FFC0005 := by decide
/-- E42: SYM_W = 16, IDX_W = 4. -/
theorem test_encode_16_4 :
    encode (p := ⟨16, 4⟩) (.int 1 2) = .node 0x10012 ∧ encode (p := ⟨16, 4⟩) (.load 1 0x20005) = .command 0x460005 ∧
    encode (p := ⟨16, 4⟩) .clear = .command 0xC00000 := by decide
/-- E41: SYM_W = 8, IDX_W = 2, where an INT word has ignored payload bits 7:4. -/
theorem test_decode_8_2_ignored_bits :
    decodeNode (p := ⟨8, 2⟩) 0x1F6 = .int 1 2 ∧ decodeNode (p := ⟨8, 2⟩) 0x106 = .int 1 2 := by decide
/-- The smallest legal parameters, SYM_W = 1, IDX_W = 1. -/
theorem test_encode_1_1 :
    encode (p := ⟨1, 1⟩) (.int 1 1) = .node 0x7 ∧ encode (p := ⟨1, 1⟩) (.load 1 0x9) = .command 0x39 ∧
    encode (p := ⟨1, 1⟩) .start = .command 0x40 := by decide

/-! ### One step on a small state -/

/-- TREE-W of B3. -/
def treeW : Memory .defaults :=
  [(0, 0x40203), (1, 0x40400), (2, 0x80078), (3, 0x80079), (4, 0x00000), (5, 0xC0005), (6, 0x40805)]

/-- One cycle of the bit source and the sink: `bit_valid`, `bit_data`, `bit_eos`, `sym_ready`. -/
def streams (v d e r : Bool) : PortIn .defaults :=
  { (PortIn.idle : PortIn .defaults) with bitValid := v, bitData := d, bitEos := e, symReady := r }

/-- A command offered in one cycle. -/
def offer (c : CmdWord) : PortIn .defaults := { (PortIn.idle : PortIn .defaults) with cmdValid := true, cmdWord := c }

/-- A state with one cycle of input and no transfer yet. -/
def at1 (st : Ctl) (code : Code) (pos : Index) (node : Memory .defaults) (x : PortIn .defaults) : State :=
  { st := st, code := code, pos := pos, node := node, inputs := [x], xfers := [] }

/-- (ST, CODE, POS) and the transfers after a step. -/
def view (o : Host.Outcome State Fault Refusal) : Option (Ctl × Code × Index × List (Transfer .defaults)) :=
  match o with
  | .next t => some (t.st, t.code, t.pos, t.xfers)
  | .fault _ => none
  | .refused _ => none

/-- The word LOAD has written at an index, after a step. -/
def wordAt (o : Host.Outcome State Fault Refusal) (a : Nat) : Option NodeWord :=
  match o with
  | .next t => t.node.lookup a
  | .fault _ => none
  | .refused _ => none

/-- H4. -/
theorem test_nop_in_fault :
    view (step (at1 .fault .decodeTruncated 7 [] (offer 0x1FFFFFFF))) =
      some (.fault, .decodeTruncated, 7, [.command .nop]) := by decide
/-- H7. -/
theorem test_load_in_done :
    wordAt (step (at1 .done .ok 8 treeW (offer 0x3FFC0005))) 511 = some 0xC0005 ∧
    view (step (at1 .done .ok 8 treeW (offer 0x3FFC0005))) = some (.done, .ok, 8, [.command (.load 511 0xC0005)]) := by
  decide
/-- H6: a second LOAD replaces the first. -/
theorem test_load_replaces :
    wordAt (step (at1 .idle .ok 0 treeW (offer 0x2008005A))) 0 = some 0x8005A := by decide
/-- H11: an EMPTY root with payload all ones. -/
theorem test_start_empty_root :
    view (step (at1 .idle .ok 0 [(0, 0x3FFFF)] (offer 0x40000000))) =
      some (.done, .emptyInput, 0, [.command .start]) := by decide
/-- H16: START in FAULT has no effect. -/
theorem test_start_in_fault :
    view (step (at1 .fault .decodeNoChild 1 treeW (offer 0x40000000))) =
      some (.fault, .decodeNoChild, 1, [.command .start]) := by decide
/-- H18. -/
theorem test_clear_in_fault :
    view (step (at1 .fault .decodeTruncated 7 treeW (offer 0x60000000))) = some (.idle, .ok, 0, [.command .clear]) := by
  decide
/-- H20 with W4: a CLEAR offered in RUN is not accepted. -/
theorem test_clear_waits_in_run :
    view (step (at1 .run .ok 0 treeW (offer 0x60000000))) = some (.run, .ok, 0, []) := by decide
/-- W3: `bit_valid` has priority over `bit_eos`. -/
theorem test_int_bit_one_with_eos :
    view (step (at1 .run .ok 0 treeW (streams true true true false))) = some (.run, .ok, 3, [.bit true]) := by decide
/-- W7: the bit that selects an absent child is consumed. -/
theorem test_int_absent_child :
    view (step (at1 .run .ok 1 treeW (streams true true false false))) =
      some (.fault, .decodeNoChild, 1, [.bit true]) := by decide
/-- W9: the symbol is emitted and the offered bit is not consumed. -/
theorem test_leaf_emits_and_returns :
    view (step (at1 .run .ok 2 treeW (streams true false false true))) = some (.run, .ok, 0, [.symbol 120]) := by decide
/-- W13 with the word 0xBFF78: the ignored bits do not reach the symbol. -/
theorem test_leaf_finishes :
    view (step (at1 .run .ok 2 [(2, 0xBFF78)] (streams false false true true))) =
      some (.done, .ok, 2, [.symbol 120]) := by decide
/-- W18. -/
theorem test_empty_faults :
    view (step (at1 .run .ok 4 treeW (streams true false false true))) = some (.fault, .decodeNoChild, 4, []) := by
  decide
/-- W19. -/
theorem test_rsvd3_faults :
    view (step (at1 .run .ok 5 treeW (streams false false true true))) = some (.fault, .badNode, 5, []) := by decide
/-- X3: nothing is accepted in a reset step. -/
theorem test_reset_dominates :
    view (step (at1 .fault .badNode 5 treeW { offer 0x20040202 with rst := true })) = some (.idle, .ok, 0, []) ∧
    wordAt (step (at1 .fault .badNode 5 treeW { offer 0x20040202 with rst := true })) 0 = some 0x40203 := by decide
/-- W10 and W15: the outputs at a leaf. -/
theorem test_outputs_at_leaf :
    (at1 .run .ok 2 treeW (streams true true false true)).symData = some 120 ∧
    (at1 .run .ok 2 treeW (streams false false false true)).symValid = false ∧
    (at1 .run .ok 2 treeW (streams true true false true)).bitReady = false := by decide
/-- O4 and O7: the outputs at an INT node, and in a reset cycle. -/
theorem test_outputs_at_int :
    (at1 .run .ok 0 treeW (streams false false false false)).bitReady = true ∧
    (at1 .run .ok 0 treeW { streams true false false false with rst := true }).bitReady = false := by decide
/-- The smallest instance takes a step: at `INT 1 1`, bit 1 leads to index 1. -/
theorem test_step_at_other_parameters :
    (match stepAt (p := ⟨1, 1⟩)
        { st := .run, code := .ok, pos := 0, node := [(0, 0x7), (1, 0x9)],
          inputs := [{ (PortIn.idle : PortIn ⟨1, 1⟩) with bitValid := true, bitData := true }], xfers := [] } with
      | .next t => decide (t.pos = 1)
      | .fault _ => false
      | .refused _ => false) = true := by decide

/-! ### Placing a word where the next step fetches it -/

theorem test_fetch_word_command :
    wordAt (step (State.reset.withFetchWord 32 0x20180041)) 1 = some 0x80041 := by decide
theorem test_fetch_word_node :
    view (step (State.reset.withFetchWord 24 0xC0005)) = some (.fault, .badNode, 0, []) := by decide

/-! ### The reference function and the assembler -/

/-- TREE-T3 of B6. -/
def treeT3 (i : Index) : NodeWord :=
  if i = 0 then 0x40203 else if i = 1 then 0x40400 else if i = 2 then 0x80078 else 0x80079

/-- T3.1. -/
theorem test_decode_T3_1 :
    runDecode treeT3 [false, false, true] = some ⟨[120, 121], 3, .done, .ok, 3⟩ := by decide
/-- T3.7: the bit that selected the absent child is consumed, the one after it is not. -/
theorem test_decode_T3_7 :
    runDecode treeT3 [false, true, true] = some ⟨[], 2, .fault, .decodeNoChild, 1⟩ := by decide
/-- A1. -/
theorem test_assemble_A1 :
    assemble .defaults [⟨65, ['0']⟩, ⟨66, ['1']⟩] = .ok [0x40202, 0x80041, 0x80042] := by decide
/-- A2. -/
theorem test_assemble_A2 :
    assemble .defaults [⟨120, ['0', '0']⟩, ⟨121, ['1']⟩] = .ok [0x40203, 0x40400, 0x80078, 0x80079] := by decide
/-- A3, A4, A5, A6, A7 and A8. -/
theorem test_assemble_malformed :
    assemble .defaults [⟨65, ['0']⟩, ⟨66, ['0']⟩] = .error .malformedTable ∧
    assemble .defaults [⟨65, ['0']⟩, ⟨66, ['0', '1']⟩] = .error .malformedTable ∧
    assemble .defaults [⟨65, ['0', '1']⟩, ⟨66, ['0']⟩] = .error .malformedTable ∧
    assemble .defaults [⟨65, ['0']⟩, ⟨66, ['1', 'x']⟩] = .error .malformedTable ∧
    assemble .defaults [⟨65, []⟩, ⟨66, ['1']⟩] = .error .malformedTable ∧
    assemble .defaults [⟨65, ['1']⟩, ⟨66, []⟩] = .error .malformedTable := by decide
/-- E10: the word of `RSVD3 5`. -/
theorem test_reserved_word : reservedWord (p := .defaults) 5 = 0xC0005 := by decide
/-- A9, A10 and A11. -/
theorem test_assemble_corners :
    assemble .defaults [⟨300, ['0']⟩] = .error .symbolRange ∧ assemble .defaults [⟨65, []⟩] = .ok [0x80041] ∧
    assemble .defaults [] = .ok [0x00000] := by decide
/-- Two node words are too few for a path of two bits (rule R100). -/
theorem test_assemble_capacity : assemble ⟨1, 1⟩ [⟨0, ['1', '1']⟩] = .error .capacity := by decide
/-- A14, an odd number of lines, and LOADTREE of the table of A10. -/
theorem test_load_tree :
    loadTree .defaults [['6', 'x'], ['0']] = .error .malformedTable ∧
    loadTree .defaults [['6', '5']] = .error .malformedTable ∧
    loadTree .defaults [['6', '5'], []] = .ok [.load 0 0x80041] := by decide

/-! ### Witnesses: states and operands that meet the hypotheses of the statements -/

/-- A walk step at the root of TREE-W with bit 0 offered (W1). -/
def atRoot : State := at1 .run .ok 0 treeW (streams true false false true)

theorem witness_StepRunsTheNodeAtPos : ∃ s : State, s.now.rst = false ∧ s.st = .run := ⟨atRoot, by decide⟩
theorem witness_StepRunsTheOfferedCommand_offered :
    ∃ s : State, s.now.rst = false ∧ s.st ≠ .run ∧ s.now.cmdValid = true :=
  ⟨at1 .done .ok 8 treeW (offer 0x3FFC0005), by decide⟩
theorem witness_StepRunsTheOfferedCommand_none :
    ∃ s : State, s.now.rst = false ∧ s.st ≠ .run ∧ s.now.cmdValid = false := ⟨State.reset, by decide⟩
theorem witness_ResetStepSetsTheRegisters : ∃ s : State, s.now.rst = true :=
  ⟨at1 .run .ok 6 treeW { streams true false false false with rst := true }, by decide⟩
theorem witness_CommandPortIgnoredInRun : ∃ s : State, s.st = .run := ⟨atRoot, by decide⟩
theorem witness_StreamsIgnored_command : ∃ s : State, s.st ≠ .run := ⟨State.reset, by decide⟩
theorem witness_StreamsIgnored_empty : ∃ s : State, s.st = .run ∧ kind s.fetch = .empty :=
  ⟨at1 .run .ok 4 treeW PortIn.idle, by decide⟩
theorem witness_StreamsIgnored_rsvd3 : ∃ s : State, s.st = .run ∧ kind s.fetch = .rsvd3 :=
  ⟨at1 .run .ok 5 treeW PortIn.idle, by decide⟩
theorem witness_BitPeekReadsTheBitSource_silent : ∃ s : State, s.now.bitValid = false ∧ s.st = .run :=
  ⟨at1 .run .ok 0 treeW (streams false true true true), by decide⟩
theorem witness_BitPeekReadsTheBitSource_offering : ∃ s : State, s.now.bitValid = true ∧ s.st = .run := ⟨atRoot, by decide⟩

/-- The four kinds of root. -/
theorem witness_StartInIdle :
    (∃ s : State, s.st = .idle ∧ kind (s.nodeAt 0#_) = .empty) ∧
    (∃ s : State, s.st = .idle ∧ kind (s.nodeAt 0#_) = .leaf) ∧
    (∃ s : State, s.st = .idle ∧ kind (s.nodeAt 0#_) = .rsvd3) ∧
    (∃ s : State, s.st = .idle ∧ kind (s.nodeAt 0#_) = .int) :=
  ⟨⟨at1 .idle .ok 0 [(0, 0x3FFFF)] PortIn.idle, by decide⟩, ⟨at1 .idle .ok 0 [(0, 0x8005A)] PortIn.idle, by decide⟩,
   ⟨at1 .idle .ok 0 [(0, 0xC0000)] PortIn.idle, by decide⟩, ⟨at1 .idle .ok 0 treeW PortIn.idle, by decide⟩⟩
/-- A LOAD of the root, and one of another word. -/
theorem witness_StartSeesTheLoadBeforeIt :
    ∃ s : State, s.st = .idle ∧ ∃ a b : Index, a = 0#_ ∧ b ≠ 0#_ := ⟨State.reset, by decide, 0, 511, by decide⟩
theorem witness_StartOutsideIdle : (∃ s : State, s.st = .done) ∧ ∃ s : State, s.st = .fault :=
  ⟨⟨at1 .done .ok 8 treeW PortIn.idle, by decide⟩, ⟨at1 .fault .badNode 5 treeW PortIn.idle, by decide⟩⟩

/-- INT: silent source, exhausted source, and a bit that selects an absent (0) or present (511) child. -/
theorem witness_IntDescends :
    (∃ s : State, s.now.bitValid = false ∧ s.now.bitEos = false) ∧
    (∃ s : State, s.now.bitValid = false ∧ s.now.bitEos = true) ∧
    (∃ (l r : Index) (s : State), s.now.bitValid = true ∧ (if s.now.bitData then r else l) = 0#_) ∧
    (∃ (l r : Index) (s : State), s.now.bitValid = true ∧ (if s.now.bitData then r else l) ≠ 0#_) :=
  ⟨⟨State.reset, by decide⟩, ⟨at1 .run .ok 0 treeW (streams false false true false), by decide⟩,
   ⟨0, 511, atRoot, by decide⟩, ⟨511, 0, atRoot, by decide⟩⟩
/-- LEAF: silent source, busy sink, a bit remaining, and the end of the stream. -/
theorem witness_LeafEmits :
    (∃ s : State, s.now.bitValid = false ∧ s.now.bitEos = false) ∧
    (∃ s : State, s.now.bitValid = true ∧ s.now.symReady = false) ∧
    (∃ s : State, s.now.bitValid = true ∧ s.now.symReady = true) ∧
    (∃ s : State, s.now.bitValid = false ∧ s.now.bitEos = true ∧ s.now.symReady = true) :=
  ⟨⟨State.reset, by decide⟩, ⟨at1 .run .ok 2 treeW (streams true true false false), by decide⟩,
   ⟨atRoot, by decide⟩, ⟨at1 .run .ok 2 treeW (streams false false true true), by decide⟩⟩

theorem witness_InstructionFrame :
    ∃ (i : Instr) (s t : State), exec i s = .next t ∧ ∃ a, t.nodeAt a ≠ s.nodeAt a :=
  ⟨.load 4 0x80041, at1 .idle .ok 0 treeW PortIn.idle, _, rfl, 4, by decide⟩

/-- Every row of the table with ST = RUN has a state in it. -/
theorem witness_WalkStepsFollowTheTransitionTable :
    ∀ x ∈ [(0, true, true, false), (0, false, true, false), (0, false, false, false), (2, true, false, true),
        (2, true, true, false), (2, false, true, true), (2, false, true, false), (2, false, false, true),
        (4, true, false, true), ((5 : Index), false, true, true)],
      ∃ s : State, s.pos = x.1 ∧ s.now.bitValid = x.2.1 ∧ s.now.bitEos = x.2.2.1 ∧ s.now.symReady = x.2.2.2 ∧
        s.now.rst = false ∧ s.st = .run ∧ s.codeAgrees :=
  fun x _ => ⟨at1 .run .ok x.1 treeW (streams x.2.1 false x.2.2.1 x.2.2.2), rfl, rfl, rfl, rfl, rfl, rfl, rfl⟩

theorem witness_TransfersAreTheCompletedHandshakes : ∃ s t : State, step s = .next t ∧ t.xfers ≠ s.xfers :=
  ⟨atRoot, stepNext atRoot, step_eq _, by decide⟩
theorem witness_HandshakesDoNotLoop :
    ∃ (s : State) (x : PortIn .defaults), x.rst = s.now.rst ∧ x.bitValid = s.now.bitValid ∧ x.bitEos = s.now.bitEos ∧
      x.symReady ≠ s.now.symReady ∧ s.symValid = true :=
  ⟨at1 .run .ok 2 treeW (streams true true false true), streams true false false false, by decide⟩
theorem witness_OnlyAnAcceptedLoadChangesNode :
    ∃ (s t : State) (a : Index), step s = .next t ∧ t.nodeAt a ≠ s.nodeAt a :=
  ⟨at1 .idle .ok 0 treeW (offer 0x2008005A), stepNext (at1 .idle .ok 0 treeW (offer 0x2008005A)), 0, step_eq _,
    by decide⟩

/-- A step that changes POS, for each of the six events. -/
theorem witness_PosChangesOnlyAsListed :
    ∀ s ∈ [at1 .run .ok 6 treeW { streams false false false false with rst := true },
        at1 .idle .ok 5 treeW (offer 0x40000000), at1 .fault .badNode 5 treeW (offer 0x60000000), at1 .run .ok 0 treeW (streams true false false false),
        at1 .run .ok 0 treeW (streams true true false false), at1 .run .ok 2 treeW (streams true true false true)],
      ∃ t, step s = .next t ∧ t.pos ≠ s.pos := by
  intro s hs
  refine ⟨stepNext s, step_eq s, ?_⟩
  revert s
  decide

theorem witness_ResultHeld_left : ∃ s t : State, s.isOver = true ∧ step s = .next t ∧
    (s.now.rst = true ∨ (s.now.cmdValid = true ∧ op s.now.cmdWord = .clear)) :=
  ⟨at1 .done .ok 3 treeW (offer 0x7FFFFFFF), _, by decide, step_eq _, by decide⟩
theorem witness_ResultHeld_held : ∃ s t : State, s.isOver = true ∧ step s = .next t ∧
    ¬ (s.now.rst = true ∨ (s.now.cmdValid = true ∧ op s.now.cmdWord = .clear)) :=
  ⟨at1 .fault .badNode 5 treeW (offer 0x40000000), _, by decide, step_eq _, by decide⟩

/-- Faults with no transfer, and one with the bit that selected an absent child. -/
theorem witness_WalkFaultsArePrecise :
    ∀ s ∈ [at1 .run .ok 0 treeW (streams false false true false), at1 .run .ok 4 treeW PortIn.idle,
        at1 .run .ok 5 treeW PortIn.idle, at1 .run .ok 1 treeW (streams true true false false)],
      ∃ t, s.st = .run ∧ step s = .next t ∧ t.st = .fault := by
  intro s hs
  refine ⟨stepNext s, ?_, step_eq s, ?_⟩ <;> revert s <;> decide

theorem witness_WalkStepStalls :
    (∃ s t : State, s.now.rst = false ∧ s.st = .run ∧ step s = .next t ∧ s.stalls = true) ∧
    ∃ s t : State, s.now.rst = false ∧ s.st = .run ∧ step s = .next t ∧ s.stalls = false :=
  ⟨⟨at1 .run .ok 2 treeW (streams true true false false), _, by decide, by decide, step_eq _, by decide⟩,
   ⟨atRoot, _, by decide, by decide, step_eq _, by decide⟩⟩

/-- A leaf with the sink busy in one cycle and the same bit offered in the next. -/
def heldOffer : State :=
  { st := .run, code := .ok, pos := 2, node := treeW,
    inputs := [streams true true false false, streams true true false true], xfers := [] }

theorem witness_OfferedSymbolIsHeld :
    ∃ s t : State, step s = .next t ∧ s.symValid = true ∧ s.now.symReady = false ∧ t.now.rst = false ∧
      s.keepsOffer t.now = true ∧ s.now.keepsEos t.now = true :=
  ⟨heldOffer, stepNext heldOffer, step_eq _, by decide⟩

/-- R63 (a): an offer not taken at a leaf must be held; a bit taken at an INT node leaves the source free. -/
theorem test_keepsOffer_until_consumed :
    heldOffer.keepsOffer (streams false false true true) = false ∧
    heldOffer.keepsOffer (streams true false false true) = false ∧
    atRoot.keepsOffer (streams false false true true) = true := by decide
/-- R63 (b): `bit_eos` beside an offered bit breaks the duty, although the walker ignores it. -/
theorem test_eosOnlyAtEnd :
    (streams true true true false).eosOnlyAtEnd [true] = false ∧
    (streams false false true false).eosOnlyAtEnd [] = true := by decide

theorem reset_inv : State.reset.Inv :=
  ⟨rfl, fun _ => rfl, fun h => absurd h (by decide), fun h => absurd h (by decide), fun h => absurd h (by decide), rfl⟩
theorem witness_StepKeepsTheInvariant : ∃ s t : State, s.Inv ∧ step s = .next t :=
  ⟨State.reset, _, reset_inv, step_eq _⟩
/-- The invariant holds in a run too, below the root. -/
theorem witness_Inv_below_root : ∃ s : State, s.Inv ∧ s.st = .run ∧ s.bitSinceRoot = true :=
  ⟨{ atRoot with pos := 1, xfers := [.command .start, .bit false] },
    ⟨rfl, fun h => absurd h (by decide), fun _ => by decide, fun _ h => absurd h (by decide),
      fun _ _ => ⟨by decide, 0, by decide⟩, by decide⟩, by decide, by decide⟩
theorem witness_StepKeepsNodeCanonical : ∃ s t : State, s.node.wf = true ∧ step s = .next t :=
  ⟨atRoot, _, by decide, step_eq _⟩
theorem witness_NodeContentsDetermineTheMemory :
    ∃ m m' : Memory .defaults, m.wf = true ∧ m'.wf = true ∧ (∀ a, m.lookup a = m'.lookup a) ∧ (0 : Index) ≠ 511 :=
  ⟨treeW, treeW, by decide, by decide, fun _ => rfl, by decide⟩

/-- TREE-T1 of B6. -/
def treeT1 (i : Index) : NodeWord := if i = 0 then 0x40202 else if i = 1 then 0x80041 else 0x80042

/-- T1.4, T1.1 and an empty root: a result with all bits consumed, a truncated one, and one with none. -/
theorem witness_BitsLeftInTheSource :
    (∃ r : Result .defaults, runDecode treeT1 [false, true] = some r ∧ r.st = .done ∧ r.code = .ok) ∧
    (∃ r : Result .defaults, runDecode treeT1 [] = some r ∧ r.st = .fault ∧ r.code = .decodeTruncated) ∧
    ∃ r : Result .defaults, runDecode (fun _ => 0) [true] = some r ∧ kind ((fun _ => 0 : Index → NodeWord) 0#_) ≠ .int :=
  ⟨⟨⟨[65, 66], 2, .done, .ok, 2⟩, by decide⟩, ⟨⟨[], 0, .fault, .decodeTruncated, 0⟩, by decide⟩,
   ⟨⟨[], 0, .done, .emptyInput, 0⟩, by decide⟩⟩

/-- A run of TREE-T1 on the stream "0" (T1.2): START, the bit, the end of the stream. -/
def runT1 : State :=
  { st := .idle, code := .ok, pos := 0, node := [(0, 0x40202), (1, 0x80041), (2, 0x80042)],
    inputs := [offer 0x40000000, streams true false false true, streams false false true true], xfers := [] }

theorem runT1_inProgress : RunInProgress [false] 2 runT1 := by
  refine ⟨by decide, fun j u h1 h2 hr => ?_⟩
  rw [run_eq_stepsFrom] at hr
  injection hr with hr
  subst hr
  obtain rfl | rfl : j = 1 ∨ j = 2 := by omega
  · decide
  · decide
theorem witness_FinishedRunAgreesWithDecode :
    ∃ (s t : State) (B : List Bool) (k : Nat), RunInProgress B k s ∧ (coreAt .defaults).run (k + 1) s = .next t ∧
      t.isOver = true :=
  ⟨runT1, stepsFrom 3 runT1, [false], 2, runT1_inProgress, run_eq_stepsFrom _ _, by decide⟩
theorem witness_NodeIsConstantDuringARun :
    ∃ (s u : State) (B : List Bool) (k j : Nat), 0 < j ∧ RunInProgress B k s ∧ j ≤ k + 1 ∧
      (coreAt .defaults).run j s = .next u :=
  ⟨runT1, stepsFrom 3 runT1, [false], 2, 3, by decide, runT1_inProgress, by decide, run_eq_stepsFrom _ _⟩
theorem witness_RunHasBoundedBusySteps :
    ∃ (s : State) (B : List Bool) (k : Nat), 0 < k ∧ RunInProgress B k s := ⟨runT1, [false], 2, by decide, runT1_inProgress⟩
theorem witness_PromptRunEnds :
    ∃ (s : State) (B : List Bool), s.offersStart = true ∧
      ∀ j u, 0 < j → j ≤ 2 * B.length + 3 → (coreAt .defaults).run j s = .next u → u.st = .run →
        u.now.rst = false ∧ u.now.prompt = true ∧
        u.now.peek.truthful (B.drop (bitsOf (xfersSince s u)).length) = true := by
  refine ⟨runT1, [false], by decide, fun j u h1 h2 hr => ?_⟩
  rw [run_eq_stepsFrom] at hr
  injection hr with hr
  subst hr
  obtain rfl | rfl | rfl | rfl | rfl : j = 1 ∨ j = 2 ∨ j = 3 ∨ j = 4 ∨ j = 5 := by simp at h2; omega
  all_goals decide

/-- TREE-T1 in NODE, before any input. -/
def loadedT1 : State := { runT1 with inputs := [] }

/-- That run with a silent source in one cycle and a busy sink in another; after it, exhausted for ever. -/
def stalling (k : Nat) : PortIn .defaults :=
  [offer 0x40000000, streams false false false false, streams true false false true,
    streams false false true false].getD k (streams false false true true)

/-- The run is in progress in cycles 1 to 4; the step in cycle 4 ends it. -/
theorem stalling_inRun {j : Nat} {u : State} (h : InRun stalling loadedT1 j u) :
    (j = 1 ∨ j = 2 ∨ j = 3 ∨ j = 4) ∧ u = driven stalling loadedT1 j := by
  obtain ⟨h1, h2, h3⟩ := inRun_iff.1 h
  refine ⟨?_, h2.symm⟩
  by_contra hj
  exact absurd (h3 5 (by decide) (by omega)) (by decide)
theorem stalling_run (i : Nat) (h1 : 0 < i) (h2 : i < 5) : (driven stalling loadedT1 i).st = .run := by
  obtain rfl | rfl | rfl | rfl : i = 1 ∨ i = 2 ∨ i = 3 ∨ i = 4 := by omega
  all_goals decide
theorem stalling_notAbandoned : NotAbandoned stalling loadedT1 := by
  intro j u h
  obtain ⟨rfl | rfl | rfl | rfl, rfl⟩ := stalling_inRun h <;> decide
theorem stalling_duties : SourceDuties [false] stalling loadedT1 := by
  refine ⟨fun j u h => ?_, fun j u v h h' => ?_, fun j u h => ?_, fun j u v h h' => ?_, fun i j u v hij h h' => ?_⟩
  · obtain ⟨rfl | rfl | rfl | rfl, rfl⟩ := stalling_inRun h <;> decide
  · obtain ⟨rfl | rfl | rfl | rfl, rfl⟩ := stalling_inRun h <;> decide
  · obtain ⟨rfl | rfl | rfl | rfl, rfl⟩ := stalling_inRun h <;> decide
  · obtain ⟨rfl | rfl | rfl | rfl, rfl⟩ := stalling_inRun h <;> decide
  · obtain ⟨rfl | rfl | rfl | rfl, rfl⟩ := stalling_inRun h <;>
      obtain ⟨rfl | rfl | rfl | rfl, rfl⟩ := stalling_inRun h' <;> first | omega | decide
theorem stalling_speaks : SourceSpeaks stalling loadedT1 := by
  intro j u h
  refine ⟨4, ?_, by decide⟩
  obtain ⟨h | h | h | h, -⟩ := stalling_inRun h <;> omega
theorem stalling_accepts : SinkAccepts stalling loadedT1 := by
  intro j u h _
  refine ⟨4, _, ?_, drive_eq _ _ _, by decide⟩
  obtain ⟨h | h | h | h, -⟩ := stalling_inRun h <;> omega

theorem witness_DutifulRunAgreesAndFinishes :
    ∃ (f : Nat → PortIn .defaults) (s t : State) (B : List Bool) (k : Nat), (s.withNow (f 0)).offersStart = true ∧
      SourceDuties B f s ∧ RunFinishes f s k t ∧ SourceSpeaks f s ∧ SinkAccepts f s ∧ NotAbandoned f s :=
  ⟨stalling, loadedT1, driven stalling loadedT1 5, [false], 5, by decide, stalling_duties,
    runFinishes_iff.2 ⟨by decide, rfl, by decide, stalling_run⟩, stalling_speaks, stalling_accepts,
    stalling_notAbandoned⟩
theorem witness_FairRunFinishes :
    ∃ (f : Nat → PortIn .defaults) (s : State) (B : List Bool), (s.withNow (f 0)).offersStart = true ∧
      SourceTruthful B f s ∧ SourceSpeaks f s ∧ SinkAccepts f s ∧ NotAbandoned f s :=
  ⟨stalling, loadedT1, [false], by decide, stalling_duties.truthful, stalling_speaks, stalling_accepts,
    stalling_notAbandoned⟩
/-- A silent source at an INT word, and a busy sink at a LEAF word. -/
theorem witness_UnfairRunStaysInRun :
    (∃ s : State, s.st = .run ∧ kind s.fetch = .int ∧ s.inputs ≠ [] ∧
      ∀ x ∈ s.inputs, x.rst = false ∧ (x.peek = .wait ∨ (kind s.fetch = .leaf ∧ x.symReady = false))) ∧
    ∃ s : State, s.st = .run ∧ kind s.fetch = .leaf ∧ s.symValid = true ∧
      ∀ x ∈ s.inputs, x.rst = false ∧ (x.peek = .wait ∨ (kind s.fetch = .leaf ∧ x.symReady = false)) :=
  ⟨⟨at1 .run .ok 0 treeW PortIn.idle, by decide⟩, ⟨at1 .run .ok 2 treeW (streams true true false false), by decide⟩⟩
theorem witness_OfferedSymbolReachesTheSink :
    ∃ (f : Nat → PortIn .defaults) (s u : State) (B : List Bool) (j : Nat) (v : Symbol .defaults),
      (s.withNow (f 0)).offersStart = true ∧ SourceDuties B f s ∧ SinkAccepts f s ∧ NotAbandoned f s ∧
      InRun f s j u ∧ u.symData = some v ∧ u.now.symReady = false :=
  ⟨stalling, loadedT1, driven stalling loadedT1 3, [false], 3, 65, by decide, stalling_duties, stalling_accepts,
    stalling_notAbandoned, inRun_iff.2 ⟨by decide, rfl, fun i h1 h2 => stalling_run i h1 (by omega)⟩, by decide,
    by decide⟩

/-- The words of TREE-T1 that a path reaches, in any node memory that holds the tree. -/
theorem follow_T1 {N : Index → NodeWord} (n0 : N 0#_ = 0x40202) (n1 : N 1#_ = 0x80041) (n2 : N 2#_ = 0x80042)
    (bs : List Bool) (x : Index) (h : follow N 0#_ bs = some x) :
    (bs = [] ∧ x = 0) ∨ (bs = [false] ∧ x = 1) ∨ (bs = [true] ∧ x = 2) := by
  have h0 : kind (N 0#_) = .int := by rw [n0]; decide
  have h1 : kind (N 1#_) = .leaf := by rw [n1]; decide
  have h2 : kind (N 2#_) = .leaf := by rw [n2]; decide
  have hf : childIndex (left (N 0#_)) (right (N 0#_)) false = 1#_ := by rw [n0]; decide
  have ht : childIndex (left (N 0#_)) (right (N 0#_)) true = 2#_ := by rw [n0]; decide
  match bs with
  | [] => left; simp only [follow, Option.some.injEq] at h; exact ⟨rfl, h.symm⟩
  | [false] =>
    right; left
    simp only [follow, h0, hf] at h
    rw [if_neg (by decide)] at h
    cases h; exact ⟨rfl, rfl⟩
  | [true] =>
    right; right
    simp only [follow, h0, ht] at h
    rw [if_neg (by decide)] at h
    cases h; exact ⟨rfl, rfl⟩
  | false :: b :: cs =>
    simp only [follow, h0, hf] at h
    rw [if_neg (by decide)] at h
    simp only [h1] at h
    cases h
  | true :: b :: cs =>
    simp only [follow, h0, ht] at h
    rw [if_neg (by decide)] at h
    simp only [h2] at h
    cases h

theorem T1_proper {N : Index → NodeWord} (n0 : N 0#_ = 0x40202) (n1 : N 1#_ = 0x80041) (n2 : N 2#_ = 0x80042) :
    ProperTree N where
  unique bs cs x h h' := by
    rcases follow_T1 n0 n1 n2 bs x h with ⟨rfl, rfl⟩ | ⟨rfl, rfl⟩ | ⟨rfl, rfl⟩ <;>
      rcases follow_T1 n0 n1 n2 cs _ h' with ⟨rfl, e⟩ | ⟨rfl, e⟩ | ⟨rfl, e⟩ <;>
      first | rfl | exact absurd e (by decide)
  root := by rw [n0]; decide
  nodes bs x h := by
    rcases follow_T1 n0 n1 n2 bs x h with ⟨-, rfl⟩ | ⟨-, rfl⟩ | ⟨-, rfl⟩
    · right; change kind (N 0#_) = _ ∧ left (N 0#_) ≠ _ ∧ right (N 0#_) ≠ _; rw [n0]; decide
    · left; change kind (N 1#_) = _; rw [n1]; decide
    · left; change kind (N 2#_) = _; rw [n2]; decide

theorem follow_treeT1 (bs : List Bool) (x : Index) (h : follow treeT1 0#_ bs = some x) :
    (bs = [] ∧ x = 0) ∨ (bs = [false] ∧ x = 1) ∨ (bs = [true] ∧ x = 2) := follow_T1 rfl rfl rfl bs x h
theorem treeT1_proper : ProperTree treeT1 := T1_proper rfl rfl rfl

/-- An endless source of zeros and a sink that is always ready: fair, and the run never ends. -/
def endless (k : Nat) : PortIn .defaults := if k = 0 then offer 0x40000000 else streams true false false true

theorem witness_RunWithoutEosNeverEnds :
    ∃ (f : Nat → PortIn .defaults) (s : State), (s.withNow (f 0)).offersStart = true ∧ ProperTree s.nodeAt ∧
      NotAbandoned f s ∧ (∀ j u, InRun f s j u → (f j).peek ≠ .eos) ∧ SourceSpeaks f s ∧ SinkAccepts f s := by
  have he : ∀ j, 0 < j → endless j = streams true false false true := fun j h => if_neg (by omega)
  refine ⟨endless, loadedT1, by decide, T1_proper (by decide) (by decide) (by decide), fun j u h => ?_,
    fun j u h => ?_, fun j u h => ⟨j, le_refl j, ?_⟩, fun j u h hv => ⟨j, u, le_refl j, h.2.1, ?_⟩⟩
  · rw [he j h.1]; decide
  · rw [he j h.1]; decide
  · rw [he j h.1]; decide
  · obtain ⟨hj, rfl, -⟩ := inRun_iff.1 h
    rw [State.putsSymbol, hv, driven_now, he j hj]; rfl

theorem witness_ProperTreeFaultsOnlyByTruncation :
    ∃ (N : Index → NodeWord) (B : List Bool) (r : Result .defaults), ProperTree N ∧ runDecode N B = some r :=
  ⟨treeT1, [false, true], ⟨[65, 66], 2, .done, .ok, 2⟩, treeT1_proper, by decide⟩
theorem witness_ProperTreeReachesALeaf :
    ∃ (N : Index → NodeWord) (h : Nat), ProperTree N ∧ (∀ bs x, IsLeafPath N bs x → bs.length ≤ h) ∧
      ∃ B : List Bool, B.length = h :=
  ⟨treeT1, 1, treeT1_proper, fun bs x hl => by
    rcases follow_treeT1 bs x hl.1 with ⟨rfl, -⟩ | ⟨rfl, -⟩ | ⟨rfl, -⟩ <;> decide, [true], rfl⟩
theorem witness_ValidEncodingDecodes :
    ∃ (N : Index → NodeWord) (first : List Bool × Index) (rest : List (List Bool × Index)), ProperTree N ∧
      ∀ e ∈ first :: rest, IsLeafPath N e.1 e.2 := by
  refine ⟨treeT1, ([false], 1), [([true], 2)], treeT1_proper, fun e he => ?_⟩
  simp only [List.mem_cons, List.not_mem_nil, or_false] at he
  rcases he with rfl | rfl <;> exact ⟨by decide, by decide⟩

/-- TREE-T1 with its leaves at other indices, other ignored bits and another unvisited word. -/
def treeT1' (i : Index) : NodeWord :=
  if i = 0 then 0x40401 else if i = 2 then 0xBFF41 else if i = 1 then 0x80042 else 0xC0000

theorem witness_SameShapeGivesSameResult :
    ∃ (N N' : Index → NodeWord) (R : Index → Index → Prop), R 0#_ 0#_ ∧
      (∀ x y, R x y → kind (N x) = kind (N' y) ∧ (kind (N x) = .leaf → sym (N x) = sym (N' y)) ∧
        (kind (N x) = .int → ∀ b,
          (childIndex (left (N x)) (right (N x)) b = 0#_ ↔ childIndex (left (N' y)) (right (N' y)) b = 0#_) ∧
          (childIndex (left (N x)) (right (N x)) b ≠ 0#_ →
            R (childIndex (left (N x)) (right (N x)) b) (childIndex (left (N' y)) (right (N' y)) b)))) ∧
      ∃ (B : List Bool) (r r' : Result .defaults), runDecode N B = some r ∧ runDecode N' B = some r' := by
  refine ⟨treeT1, treeT1', fun x y => (x = 0 ∧ y = 0) ∨ (x = 1 ∧ y = 2) ∨ (x = 2 ∧ y = 1), by decide, ?_,
    [false, true], ⟨[65, 66], 2, .done, .ok, 2⟩, ⟨[65, 66], 2, .done, .ok, 1⟩, by decide, by decide⟩
  rintro x y (⟨rfl, rfl⟩ | ⟨rfl, rfl⟩ | ⟨rfl, rfl⟩) <;> decide

theorem witness_AssembledTableIsSound :
    ∃ (rs : List Record) (img : Image .defaults), rs ≠ [] ∧ assemble .defaults rs = .ok img :=
  ⟨[⟨65, ['0']⟩, ⟨66, ['1']⟩], [0x40202, 0x80041, 0x80042], by decide, by decide⟩
/-- A path to a LEAF of that table's image, and a table of the one record with the empty bit-string. -/
theorem witness_AssembledLeavesAreTheRecords :
    (∃ (rs : List Record) (img : Image .defaults) (bs : List Bool) (x : Index), rs ≠ [] ∧
      assemble .defaults rs = .ok img ∧ IsLeafPath img.nodes bs x) ∧
    ∃ (rs : List Record) (img : Image .defaults), rs = [⟨65, []⟩] ∧ assemble .defaults rs = .ok img :=
  ⟨⟨[⟨65, ['0']⟩, ⟨66, ['1']⟩], [0x40202, 0x80041, 0x80042], [true], 2, by decide, by decide, by decide, by decide⟩,
   ⟨[⟨65, []⟩], [0x80041], by decide, by decide⟩⟩
theorem witness_LoadingAnImageStoresIt : ∃ img : Image .defaults, img.length ≤ 2 ^ Params.defaults.idxW ∧ img ≠ [] :=
  ⟨[0x40202, 0x80041, 0x80042], by decide⟩

end Sys2Proof.Tests
end

section
/-! PROOF. What the operations, the instructions and a step do to NODE, to the record of transfers, to POS and to the
invariant of rule R30, at any parameters. -/

namespace Sys2Proof.Machine

variable {p : Params}

/-! ### Outcomes as next states -/

/-- A step answers `t` exactly when `t` is its next state. -/
theorem step_eq_next_iff {s t : State} : step s = .next t ↔ stepNext s = t := by
  rw [step_eq, Host.Outcome.next.injEq]

/-- An instruction answers `t` exactly when `t` is its effect past the clock edge. -/
theorem exec_eq_next_iff {i : Instr} {s t : State} : exec i s = .next t ↔ (effect i s).tick = t := by
  rw [exec_eq_execAt, execAt_eq, Host.Outcome.next.injEq]

/-! ### NODE (rule R24) -/

@[simp] theorem State.walkInt_nodeAt (s : State p) (l r a : Index p) : (s.walkInt l r).nodeAt a = s.nodeAt a := by
  simp [State.nodeAt]

@[simp] theorem State.walkLeaf_nodeAt (s : State p) (v : Symbol p) (a : Index p) :
    (s.walkLeaf v).nodeAt a = s.nodeAt a := by
  simp [State.nodeAt]

@[simp] theorem State.startRun_nodeAt (s : State p) (a : Index p) : s.startRun.nodeAt a = s.nodeAt a := by
  simp [State.nodeAt]

/-- A word that LOAD wrote over: if writing `v` at `i` changed the word at `a`, then `i` is `a`. -/
theorem State.eq_of_setNode_nodeAt_ne {s : State p} {i a : Index p} {v : NodeWord p}
    (h : (s.setNode i v).nodeAt a ≠ s.nodeAt a) : i = a := by
  by_contra hne
  exact h (by simp [Ne.symm hne])

/-- Only LOAD changes a word of NODE, and only the one it stores. -/
theorem effect_nodeAt_ne {i : Instr p} {s : State p} {a : Index p} (h : (effect i s).nodeAt a ≠ s.nodeAt a) :
    ∃ d, i = .load a d ∧ (effect i s).nodeAt a = d := by
  cases i with
  | load b d =>
    obtain rfl : b = a := State.eq_of_setNode_nodeAt_ne h
    exact ⟨d, rfl, by simp [effect]⟩
  | _ => simp [effect] at h

/-- A step that changes a word of NODE is the step of an accepted LOAD of that word. -/
theorem stepNext_nodeAt_ne {s : State p} {a : Index p} (h : (stepNext s).nodeAt a ≠ s.nodeAt a) :
    s.now.rst = false ∧ s.st ≠ .run ∧ s.now.cmdValid = true ∧ op s.now.cmdWord = .load ∧
      addr s.now.cmdWord = a ∧ (stepNext s).nodeAt a = data s.now.cmdWord := by
  rcases stepNext_cases s with ⟨-, e⟩ | ⟨-, -, -, e⟩ | ⟨-, -, -, e⟩ | ⟨-, -, -, e⟩ | ⟨-, -, -, e⟩ | ⟨-, -, -, e⟩ |
    ⟨-, -, -, -, e⟩ | ⟨hrst, hst, hv, hop, e⟩ | ⟨-, -, -, -, e⟩ | ⟨-, -, -, -, e⟩ <;>
    rw [e] at h ⊢
  -- the accepted LOAD is the eighth of the ten cases
  pick_goal 8
  · have ha : addr s.now.cmdWord = a := State.eq_of_setNode_nodeAt_ne h
    exact ⟨hrst, hst, hv, hop, ha, by simp [ha]⟩
  all_goals simp at h

/-! ### The record of transfers (rule R28) -/

/-- The transfers an instruction makes while the input ports carry `x`: its own acceptance for a command, the offered
bit for INT, the symbol for LEAF when the source has spoken and the sink is ready, none for EMPTY and RSVD3. -/
def transfersOf (i : Instr p) (x : PortIn p) : List (Transfer p) :=
  match i with
  | .nop => [.command .nop]
  | .load a d => [.command (.load a d)]
  | .start => [.command .start]
  | .clear => [.command .clear]
  | .empty => []
  | .int _ _ => if x.bitValid then [.bit x.bitData] else []
  | .leaf v => if (x.bitValid || x.bitEos) && x.symReady then [.symbol v] else []
  | .rsvd3 => []

theorem State.walkInt_xfers (s : State p) (l r : Index p) :
    (s.walkInt l r).xfers = s.xfers ++ transfersOf (.int l r) s.now := by
  rcases s.walkInt_cases l r with ⟨hp, e⟩ | ⟨hp, e⟩ | ⟨b, hp, -, e⟩ | ⟨b, hp, -, e⟩
  · simp [e, transfersOf, PortIn.peek_wait.1 hp]
  · simp [e, transfersOf, PortIn.peek_eos.1 hp]
  · simp [e, transfersOf, PortIn.peek_bit.1 hp]
  · simp [e, transfersOf, PortIn.peek_bit.1 hp]

theorem State.walkLeaf_xfers (s : State p) (v : Symbol p) :
    (s.walkLeaf v).xfers = s.xfers ++ transfersOf (.leaf v) s.now := by
  rcases s.walkLeaf_cases v with ⟨hp | hr, e⟩ | ⟨b, hp, hr, e⟩ | ⟨hp, hr, e⟩
  · simp [e, transfersOf, PortIn.peek_wait.1 hp]
  · simp [e, transfersOf, hr]
  · simp [e, transfersOf, PortIn.peek_bit.1 hp, hr]
  · simp [e, transfersOf, PortIn.peek_eos.1 hp, hr]

/-- An instruction appends its transfers to the record. -/
theorem effect_xfers (i : Instr p) (s : State p) : (effect i s).xfers = s.xfers ++ transfersOf i s.now := by
  cases i with
  | int l r => exact s.walkInt_xfers l r
  | leaf v => exact s.walkLeaf_xfers v
  | _ => simp [effect, transfersOf]

theorem length_transfersOf_le_one (i : Instr p) (x : PortIn p) : (transfersOf i x).length ≤ 1 := by
  cases i with
  | int l r | leaf v => simp only [transfersOf]; split <;> simp
  | _ => simp [transfersOf]

/-- An accepted command is recorded as it was decoded. -/
theorem transfersOf_decodeCommand (c : CmdWord p) (x : PortIn p) :
    transfersOf (decodeCommand c) x = [.command (decodeCommand c)] := by
  unfold decodeCommand
  cases op c <;> rfl

/-- A walk step makes the transfers of the bit and symbol interfaces (rules R62 and R66). -/
theorem transfersOf_decodeNode {s : State p} (hrst : s.now.rst = false) (hst : s.st = .run) :
    transfersOf (decodeNode s.fetch) s.now =
      (if s.takesBit then [.bit s.now.bitData] else []) ++
        (if s.putsSymbol then [.symbol (sym s.fetch)] else []) := by
  cases hk : kind s.fetch <;>
    simp [decodeNode, transfersOf, State.takesBit, State.bitReady, State.atInternal, State.putsSymbol, State.symValid,
      State.atLeaf, hrst, hst, hk]

/-- Outside a walk step the bit and symbol interfaces make no transfer (rule R29). -/
theorem State.takesBit_putsSymbol_of_not_walking {s : State p} (h : s.now.rst = true ∨ s.st ≠ .run) :
    s.takesBit = false ∧ s.putsSymbol = false := by
  rcases h with h | h <;> simp [State.takesBit, State.bitReady, State.putsSymbol, State.symValid, h]

/-- The transfers of a step are those of the three interfaces whose valid and ready are both 1. -/
theorem stepNext_xfers (s : State p) :
    (stepNext s).xfers = s.xfers ++
      (if s.now.cmdValid && s.cmdReady then [.command (decodeCommand s.now.cmdWord)] else []) ++
      (if s.takesBit then [.bit s.now.bitData] else []) ++
      (if s.putsSymbol then [.symbol (sym s.fetch)] else []) := by
  unfold stepNext
  cases hrst : s.now.rst with
  | true => simp [State.cmdReady, State.takesBit_putsSymbol_of_not_walking (.inl hrst), hrst]
  | false =>
    by_cases hst : s.st = .run
    · simp [effect_xfers, transfersOf_decodeNode hrst hst, State.cmdReady, hst]
    · cases hv : s.now.cmdValid <;>
        simp [effect_xfers, transfersOf_decodeCommand, State.cmdReady,
          State.takesBit_putsSymbol_of_not_walking (.inr hst), hrst, hst]

/-! ### POS (rule R23) -/

/-- START changes POS only in IDLE, where it sets it to 0. -/
theorem State.startRun_pos_ne {s : State p} (h : s.startRun.pos ≠ s.pos) :
    s.st = .idle ∧ s.startRun.pos = 0#p.idxW := by
  rcases s.startRun_cases with ⟨-, e⟩ | ⟨hi, -, e⟩ | ⟨hi, -, e⟩ | ⟨hi, -, e⟩ | ⟨hi, -, e⟩
  · simp [e] at h
  all_goals exact ⟨hi, by simp [e]⟩

/-- INT changes POS only on a bit, to the child it selects, which is not 0. -/
theorem State.walkInt_pos_ne {s : State p} {l r : Index p} (h : (s.walkInt l r).pos ≠ s.pos) :
    s.now.bitValid = true ∧ childIndex l r s.now.bitData ≠ 0#p.idxW ∧
      (s.walkInt l r).pos = childIndex l r s.now.bitData := by
  rcases s.walkInt_cases l r with ⟨-, e⟩ | ⟨-, e⟩ | ⟨b, -, -, e⟩ | ⟨b, hp, hc, e⟩
  · simp [e] at h
  · simp [e] at h
  · simp [e] at h
  · obtain ⟨hv, rfl⟩ := PortIn.peek_bit.1 hp
    exact ⟨hv, hc, by simp [e]⟩

/-- LEAF changes POS only when it emits while a bit is offered, and then to 0. -/
theorem State.walkLeaf_pos_ne {s : State p} {v : Symbol p} (h : (s.walkLeaf v).pos ≠ s.pos) :
    s.now.bitValid = true ∧ s.now.symReady = true ∧ (s.walkLeaf v).pos = 0#p.idxW := by
  rcases s.walkLeaf_cases v with ⟨-, e⟩ | ⟨b, hp, hr, e⟩ | ⟨-, -, e⟩
  · simp [e] at h
  · exact ⟨(PortIn.peek_bit.1 hp).1, hr, by simp [e]⟩
  · simp [e] at h

/-- A step that changes POS is a reset step, an accepted START in IDLE, an accepted CLEAR, a descent at an INT node,
or an emission at a LEAF with a bit offered. -/
theorem stepNext_pos_ne {s : State p} (h : (stepNext s).pos ≠ s.pos) :
    (s.now.rst = true ∧ (stepNext s).pos = 0#p.idxW) ∨
    (s.now.rst = false ∧ s.st = .idle ∧ s.now.cmdValid = true ∧ op s.now.cmdWord = .start ∧
      (stepNext s).pos = 0#p.idxW) ∨
    (s.now.rst = false ∧ s.st ≠ .run ∧ s.now.cmdValid = true ∧ op s.now.cmdWord = .clear ∧
      (stepNext s).pos = 0#p.idxW) ∨
    (s.now.rst = false ∧ s.st = .run ∧ kind s.fetch = .int ∧ s.now.bitValid = true ∧
      childIndex (left s.fetch) (right s.fetch) s.now.bitData ≠ 0#p.idxW ∧
      (stepNext s).pos = childIndex (left s.fetch) (right s.fetch) s.now.bitData) ∨
    (s.now.rst = false ∧ s.st = .run ∧ kind s.fetch = .leaf ∧ s.now.bitValid = true ∧ s.now.symReady = true ∧
      (stepNext s).pos = 0#p.idxW) := by
  rcases stepNext_cases s with ⟨hrst, e⟩ | ⟨-, -, -, e⟩ | ⟨hrst, hst, hk, e⟩ | ⟨hrst, hst, hk, e⟩ | ⟨-, -, -, e⟩ |
    ⟨-, -, -, e⟩ | ⟨-, -, -, -, e⟩ | ⟨-, -, -, -, e⟩ | ⟨hrst, -, hv, hop, e⟩ | ⟨hrst, hst, hv, hop, e⟩ <;>
    rw [e] at h ⊢
  · exact .inl ⟨hrst, rfl⟩
  · simp at h
  · exact .inr <| .inr <| .inr <| .inl ⟨hrst, hst, hk, State.walkInt_pos_ne h⟩
  · exact .inr <| .inr <| .inr <| .inr ⟨hrst, hst, hk, State.walkLeaf_pos_ne h⟩
  · simp at h
  · simp at h
  · simp at h
  · simp at h
  · obtain ⟨hidle, hpos⟩ := State.startRun_pos_ne h
    exact .inr <| .inl ⟨hrst, hidle, hv, hop, hpos⟩
  · exact .inr <| .inr <| .inl ⟨hrst, hst, hv, hop, rfl⟩

/-! ### The last transfer tells whether POS is below the root (assumption log 13) -/

@[simp] theorem State.accept_bitSinceRoot (s : State p) (i : Instr p) : (s.accept i).bitSinceRoot = false := by
  simp [State.bitSinceRoot]

@[simp] theorem State.bitTake_bitSinceRoot (s : State p) (b : Bool) : (s.bitTake b).bitSinceRoot = true := by
  simp [State.bitSinceRoot]

@[simp] theorem State.symPut_bitSinceRoot (s : State p) (v : Symbol p) : (s.symPut v).bitSinceRoot = false := by
  simp [State.bitSinceRoot]

@[simp] theorem State.moveTo_bitSinceRoot (s : State p) (c : Index p) :
    (s.moveTo c).bitSinceRoot = s.bitSinceRoot := rfl

@[simp] theorem State.beginRun_bitSinceRoot (s : State p) : s.beginRun.bitSinceRoot = s.bitSinceRoot := rfl

/-! ### The operations keep the invariant (rule R30) -/

/-- Outside RUN the invariant says nothing of the root and the transfers. -/
theorem State.Inv.of_not_run {s : State p} (hst : s.st ≠ .run) (hcodes : s.codeAgrees)
    (hpos : s.st = .idle → s.pos = 0#p.idxW) (hwf : s.node.wf = true) : s.Inv where
  codes := hcodes
  idlePos := hpos
  runRoot hrun := absurd hrun hst
  runAtRoot hrun := absurd hrun hst
  runBelowRoot hrun := absurd hrun hst
  memory := hwf

theorem resetAt_inv : (State.resetAt p).Inv := .of_not_run (by simp) rfl (fun _ => rfl) State.resetAt_wf

theorem State.Inv.tick {s : State p} (h : s.Inv) : s.tick.Inv where
  codes := h.codes
  idlePos := h.idlePos
  runRoot := h.runRoot
  runAtRoot := h.runAtRoot
  runBelowRoot := h.runBelowRoot
  memory := h.memory

theorem State.Inv.toIdle {s : State p} (h : s.Inv) : s.toIdle.Inv :=
  .of_not_run (by simp) rfl (fun _ => rfl) h.memory

/-- A command is accepted outside RUN only (rule R121). -/
theorem State.Inv.accept {s : State p} (h : s.Inv) (hst : s.st ≠ .run) (i : Instr p) : (s.accept i).Inv :=
  .of_not_run hst h.codes h.idlePos h.memory

/-- NODE is written outside RUN only (rule R31). -/
theorem State.Inv.setNode {s : State p} (h : s.Inv) (hst : s.st ≠ .run) (a : Index p) (d : NodeWord p) :
    (s.setNode a d).Inv :=
  .of_not_run hst h.codes h.idlePos (State.setNode_wf h.memory a d)

theorem raiseFault_inv {s : State p} {c : Code} (hwf : s.node.wf = true)
    (hc : c = .decodeTruncated ∨ c = .decodeNoChild ∨ c = .degenerateTree ∨ c = .badNode) : (s.raiseFault c).Inv :=
  .of_not_run (by simp) hc (by simp) hwf

theorem finish_inv {s : State p} {c : Code} (hwf : s.node.wf = true) (hc : c = .ok ∨ c = .emptyInput) :
    (s.finish c).Inv :=
  .of_not_run (by simp) hc (by simp) hwf

/-- A run begins at an INT root, with no bit consumed yet. -/
theorem beginRun_inv {s : State p} (hwf : s.node.wf = true) (hroot : kind s.root = .int)
    (hbit : s.bitSinceRoot = false) : (s.moveTo 0#p.idxW).beginRun.Inv where
  codes := rfl
  idlePos hidle := absurd hidle (by simp)
  runRoot _ := hroot
  runAtRoot _ _ := rfl
  runBelowRoot _ hb := absurd hb (by simp [hbit])
  memory := hwf

/-- START keeps the invariant; its own acceptance is the last transfer when a run begins. -/
theorem State.Inv.startRun {s : State p} (h : s.Inv) (hbit : s.bitSinceRoot = false) : s.startRun.Inv := by
  rcases s.startRun_cases with ⟨-, e⟩ | ⟨-, -, e⟩ | ⟨-, -, e⟩ | ⟨-, -, e⟩ | ⟨-, hk, e⟩ <;> rw [e]
  · exact h
  · exact finish_inv h.memory (by decide)
  · exact raiseFault_inv h.memory (by decide)
  · exact raiseFault_inv h.memory (by decide)
  · exact beginRun_inv h.memory hk hbit

/-- The index a bit selects at the INT word `NODE[j]` is a child index of that word. -/
theorem State.isChild_childIndex {s : State p} {j : Index p} (hk : kind (s.nodeAt j) = .int) (b : Bool) :
    s.isChild (childIndex (left (s.nodeAt j)) (right (s.nodeAt j)) b) := by
  cases b
  · exact ⟨j, hk, .inl rfl⟩
  · exact ⟨j, hk, .inr rfl⟩

/-- A descent leads to a child index of the INT word visited; the consumed bit is the last transfer. -/
theorem State.Inv.descendTo {s : State p} (h : s.Inv) (hst : s.st = .run) (b : Bool) {c : Index p} (hc : c ≠ 0#p.idxW)
    (hchild : s.isChild c) : ((s.bitTake b).moveTo c).Inv where
  codes := h.codes
  idlePos hidle := absurd hidle (by simp [hst])
  runRoot := h.runRoot
  runAtRoot _ hb := absurd hb (by simp)
  runBelowRoot _ _ := ⟨hc, hchild⟩
  memory := h.memory

/-- An emission that returns to the root; the symbol is the last transfer. -/
theorem State.Inv.returnToRoot {s : State p} (h : s.Inv) (v : Symbol p) : ((s.symPut v).moveTo 0#p.idxW).Inv where
  codes := h.codes
  idlePos _ := rfl
  runRoot := h.runRoot
  runAtRoot _ _ := rfl
  runBelowRoot _ hb := absurd hb (by simp)
  memory := h.memory

theorem State.Inv.walkInt {s : State p} (h : s.Inv) (hst : s.st = .run) (hk : kind s.fetch = .int) :
    (s.walkInt (left s.fetch) (right s.fetch)).Inv := by
  rcases s.walkInt_cases (left s.fetch) (right s.fetch) with ⟨-, e⟩ | ⟨-, e⟩ | ⟨b, -, -, e⟩ | ⟨b, -, hc, e⟩ <;> rw [e]
  · exact h
  · exact raiseFault_inv h.memory (by decide)
  · exact raiseFault_inv h.memory (by decide)
  · exact h.descendTo hst b hc (State.isChild_childIndex hk b)

theorem State.Inv.walkLeaf {s : State p} (h : s.Inv) (v : Symbol p) : (s.walkLeaf v).Inv := by
  rcases s.walkLeaf_cases v with ⟨-, e⟩ | ⟨b, -, -, e⟩ | ⟨-, -, e⟩ <;> rw [e]
  · exact h
  · exact h.returnToRoot v
  · exact finish_inv h.memory (by decide)

/-- Every step keeps the invariant, at any parameters. -/
theorem stepNext_inv {s : State p} (h : s.Inv) : (stepNext s).Inv := by
  rcases stepNext_cases s with ⟨-, e⟩ | ⟨-, -, -, e⟩ | ⟨-, hst, hk, e⟩ | ⟨-, -, -, e⟩ | ⟨-, -, -, e⟩ | ⟨-, -, -, e⟩ |
    ⟨-, hst, -, -, e⟩ | ⟨-, hst, -, -, e⟩ | ⟨-, hst, -, -, e⟩ | ⟨-, hst, -, -, e⟩ <;> rw [e] <;> apply State.Inv.tick
  · exact h.toIdle
  · exact raiseFault_inv h.memory (by decide)
  · exact h.walkInt hst hk
  · exact h.walkLeaf (sym s.fetch)
  · exact raiseFault_inv h.memory (by decide)
  · exact h
  · exact h.accept hst _
  · exact (h.accept hst _).setNode hst _ _
  · exact (h.accept hst _).startRun (by simp)
  · exact (h.accept hst _).toIdle

/-! ### The output ports (rule R29) -/

theorem State.withNow_cmdReady (s : State p) {x : PortIn p} (h : x.rst = s.now.rst) :
    (s.withNow x).cmdReady = s.cmdReady := by
  rw [State.cmdReady, State.withNow_now, h]
  rfl

theorem State.withNow_bitReady (s : State p) {x : PortIn p} (h : x.rst = s.now.rst) :
    (s.withNow x).bitReady = s.bitReady := by
  rw [State.bitReady, State.withNow_now, h]
  rfl

theorem State.withNow_symValid (s : State p) {x : PortIn p} (h : x.rst = s.now.rst)
    (hv : x.bitValid = s.now.bitValid) (he : x.bitEos = s.now.bitEos) : (s.withNow x).symValid = s.symValid := by
  rw [State.symValid, State.withNow_now, h, hv, he]
  rfl

/-- The codes 6 and 7 are reserved (rule R22). -/
theorem Code.bits_toNat_le_five (c : Code) : c.bits.toNat ≤ 5 := by
  cases c <;> decide

/-- Bit 1 of ST tells whether the run is over (rule R197). -/
theorem State.isOver_eq_bit_one_of_st (s : State p) : s.isOver = s.st.bits.getLsbD 1 := by
  unfold State.isOver
  cases s.st <;> rfl

end Sys2Proof.Machine

namespace Sys2Proof.Proofs

open Sys2Proof.Machine

/-- Settles O36: one operation lemma for each case of a step. -/
theorem stepKeepsTheInvariant : Obligations.StepKeepsTheInvariant := by
  intro s t h hstep
  rw [← step_eq_next_iff.1 hstep]
  exact stepNext_inv h

/-- Settles O23, from the effect of each instruction on NODE and on the record of transfers. -/
theorem instructionFrame : Obligations.InstructionFrame := by
  intro i s t hexec
  rw [← exec_eq_next_iff.1 hexec]
  exact ⟨fun _ => effect_nodeAt_ne, transfersOf i s.now, effect_xfers i s, length_transfersOf_le_one i s.now⟩

/-- Settles O25; `sym_data` carries the symbol of the node at POS whenever `sym_valid` is 1. -/
theorem transfersAreTheCompletedHandshakes : Obligations.TransfersAreTheCompletedHandshakes := by
  intro s t hstep
  rw [← step_eq_next_iff.1 hstep, stepNext_xfers, State.takesBit, State.putsSymbol, State.symData]
  cases s.symValid <;> rfl

/-- Settles O29. -/
theorem onlyAnAcceptedLoadChangesNode : Obligations.OnlyAnAcceptedLoadChangesNode := by
  intro s t a hstep hne
  obtain rfl := step_eq_next_iff.1 hstep
  exact stepNext_nodeAt_ne hne

/-- Settles O30; the descent splits by the bit consumed. -/
theorem posChangesOnlyAsListed : Obligations.PosChangesOnlyAsListed := by
  intro s t hstep hne
  obtain rfl := step_eq_next_iff.1 hstep
  rcases stepNext_pos_ne hne with h | h | h | ⟨hrst, hst, hk, hv, hc, hpos⟩ | h
  · exact .inl h
  · exact .inr <| .inl h
  · exact .inr <| .inr <| .inl h
  · cases hb : s.now.bitData <;> rw [hb] at hc hpos
    · exact .inr <| .inr <| .inr <| .inl ⟨hrst, hst, hk, hv, rfl, hc, hpos⟩
    · exact .inr <| .inr <| .inr <| .inr <| .inl ⟨hrst, hst, hk, hv, rfl, hc, hpos⟩
  · exact .inr <| .inr <| .inr <| .inr <| .inr h

/-- Settles O26. -/
theorem handshakesDoNotLoop : Obligations.HandshakesDoNotLoop := by
  intro s x hrst
  refine ⟨s.withNow_cmdReady hrst, s.withNow_bitReady hrst, fun hv he => ?_⟩
  have hsym := s.withNow_symValid hrst hv he
  exact ⟨hsym, by rw [State.symData, State.symData, hsym, State.withNow_fetch]⟩

/-- Settles O27. -/
theorem statusOutputsShowTheRegisters : Obligations.StatusOutputsShowTheRegisters := by
  intro s
  refine ⟨rfl, s.code.bits_toNat_le_five, ?_, ?_, ?_⟩
  · change s.st.bits = _
    cases s.st <;> rfl
  · change s.code.bits = _
    cases s.code <;> rfl
  · rw [State.isOver_eq_bit_one_of_st]
    rfl

/-- Settles O28: each of the four kinds makes one predicate true. -/
theorem exactlyOnePositionPredicateHolds : Obligations.ExactlyOnePositionPredicateHolds := by
  intro p s
  unfold State.atInternal State.atLeaf State.atAbsent State.atReserved
  cases kind s.fetch <;> rfl

/-- Settles O35. -/
theorem resetEstablishesTheInvariant : Obligations.ResetEstablishesTheInvariant :=
  ⟨rfl, rfl, rfl, resetAt_inv⟩

end Sys2Proof.Proofs
end

section
/-! PROOF. What keeps every word of NODE during a run, what an offered symbol needs to be offered again, and the
hazard statements about the node memory and the two streams. -/

namespace Sys2Proof.Machine

variable {p : Params}

/-! ### NODE during a run (rules R69 and R71) -/

/-- A step keeps every word of NODE in RUN, and also when the command offered is no LOAD. -/
theorem stepNext_nodeAt_of_no_load {s : State p} (h : s.st = .run ∨ op s.now.cmdWord ≠ .load) (a : Index p) :
    (stepNext s).nodeAt a = s.nodeAt a := by
  by_contra hne
  obtain ⟨-, hst, -, hop, -⟩ := stepNext_nodeAt_ne hne
  exact h.elim hst (absurd hop)

/-- In each step of a run ST is RUN or the command offered is START, so no step of it is a LOAD. -/
theorem RunInProgress.no_load {B : List Bool} {k j : Nat} {s : State p} (h : RunInProgress B k s) (hj : j ≤ k) :
    (stepsFrom j s).st = .run ∨ op (stepsFrom j s).now.cmdWord ≠ .load := by
  obtain ⟨hstart, hrun⟩ := h
  cases j with
  | zero =>
    have hop : op s.now.cmdWord = .start := by
      simp only [State.offersStart, Bool.and_eq_true, decide_eq_true_eq] at hstart
      exact hstart.2
    exact .inr (by simp [stepsFrom, hop])
  | succ j => exact .inl (hrun (j + 1) _ j.succ_pos hj (run_eq_stepsFrom _ _)).1

/-- Through a run NODE keeps the words it had when START was offered. -/
theorem RunInProgress.stepsFrom_nodeAt {B : List Bool} {k j : Nat} {s : State p} (h : RunInProgress B k s)
    (hj : j ≤ k + 1) (a : Index p) : (stepsFrom j s).nodeAt a = s.nodeAt a := by
  induction j with
  | zero => rfl
  | succ j ih =>
    rw [stepsFrom_succ, stepNext_nodeAt_of_no_load (h.no_load (by omega)), ih (by omega)]

/-! ### The bit source as a step sees it (rule R61) -/

/-- Two input records that differ in the bit source only, and show the same there, give the same step. -/
theorem step_withNow_of_peek {s : State} {x : PortIn .defaults} (hrst : x.rst = s.now.rst)
    (hvalid : x.cmdValid = s.now.cmdValid) (hword : x.cmdWord = s.now.cmdWord) (hsym : x.symReady = s.now.symReady)
    (hpeek : x.peek = s.now.peek) : step (s.withNow x) = step s := by
  rw [step_eq, step_eq,
    stepNext_withNow hrst (fun _ => ⟨hvalid, fun _ => hword⟩) (fun _ _ => hpeek) (fun _ _ => hsym)]

/-! ### START after a LOAD (rule R125) -/

/-- ST and CODE as START in IDLE leaves them, by the kind of the root. -/
def startResult : Kind → Ctl × Code
  | .empty => (.done, .emptyInput)
  | .leaf => (.fault, .degenerateTree)
  | .rsvd3 => (.fault, .badNode)
  | .int => (.run, .ok)

/-- START in IDLE moves to the root and dispatches on its kind. -/
theorem State.startRun_of_idle {s : State p} (h : s.st = .idle) :
    s.startRun.pos = 0#p.idxW ∧ (s.startRun.st, s.startRun.code) = startResult (kind s.root) := by
  rcases s.startRun_cases with ⟨hne, -⟩ | ⟨-, hk, e⟩ | ⟨-, hk, e⟩ | ⟨-, hk, e⟩ | ⟨-, hk, e⟩
  · exact absurd h hne
  all_goals rw [e, hk]; exact ⟨rfl, rfl⟩

/-! ### An offered symbol (rules R63 and R67) -/

@[simp] theorem State.tick_fetch (s : State p) : s.tick.fetch = s.fetch := rfl

theorem PortIn.peek_ne_wait {x : PortIn p} : x.peek ≠ .wait ↔ x.bitValid = true ∨ x.bitEos = true := by
  rw [Ne, PortIn.peek_wait]
  cases x.bitValid <;> simp

/-- A symbol is offered exactly by a walk step at a LEAF where the source says something. -/
theorem State.symValid_iff {s : State p} :
    s.symValid = true ↔ s.now.rst = false ∧ s.st = .run ∧ kind s.fetch = .leaf ∧ s.now.peek ≠ .wait := by
  simp [State.symValid, State.atLeaf, PortIn.peek_ne_wait, and_assoc]

theorem State.symData_eq_some_iff {s : State p} {v : Symbol p} :
    s.symData = some v ↔ s.symValid = true ∧ sym s.fetch = v := by
  simp [State.symData]

/-- No bit is consumed at a LEAF (rule R142). -/
theorem State.takesBit_of_leaf {s : State p} (h : kind s.fetch = .leaf) : s.takesBit = false := by
  simp [State.takesBit, State.bitReady, State.atInternal, h]

/-- A stalled walk step only passes the clock edge. -/
theorem stepNext_of_stalls {s : State p} (hrst : s.now.rst = false) (hst : s.st = .run) (h : s.stalls = true) :
    stepNext s = s.tick := by
  simpa [h] using walkStep_cases hrst hst

/-- A step in which the sink does not take the symbol offered stalls (rule R145). -/
theorem stepNext_of_untaken_symbol {s : State p} (hv : s.symValid = true) (hr : s.now.symReady = false) :
    stepNext s = s.tick := by
  obtain ⟨hrst, hst, hk, -⟩ := State.symValid_iff.1 hv
  exact stepNext_of_stalls hrst hst (by simp [State.stalls, hk, hr])

/-- A source that keeps duties (a) and (b) of rule R63 does not fall silent while a symbol is offered: a bit it offers
is not consumed, so it offers it again, and exhaustion it reports again. -/
theorem State.peek_ne_wait_of_duties {s : State p} {x : PortIn p} (hv : s.symValid = true)
    (ho : s.keepsOffer x = true) (he : s.now.keepsEos x = true) : x.peek ≠ .wait := by
  obtain ⟨-, -, hk, hpeek⟩ := State.symValid_iff.1 hv
  cases hp : s.now.peek with
  | wait => exact absurd hp hpeek
  | eos =>
    have : x.peek = .eos := by simpa [PortIn.keepsEos, hp] using he
    simp [this]
  | bit b =>
    have hb := (PortIn.peek_bit.1 hp).1
    have hx : x.bitValid = true ∧ x.bitData = s.now.bitData := by
      simpa [State.keepsOffer, State.takesBit_of_leaf hk, hb] using ho
    exact PortIn.peek_ne_wait.2 (.inl hx.1)

/-- Under those duties a state that still stands in RUN on the same node offers the symbol again. -/
theorem State.symValid_of_duties {s t : State p} (hst : t.st = s.st) (hfetch : t.fetch = s.fetch)
    (hv : s.symValid = true) (hrst : t.now.rst = false) (ho : s.keepsOffer t.now = true)
    (he : s.now.keepsEos t.now = true) : t.symValid = true := by
  obtain ⟨-, hrun, hk, -⟩ := State.symValid_iff.1 hv
  exact State.symValid_iff.2 ⟨hrst, hst.trans hrun, hfetch ▸ hk, State.peek_ne_wait_of_duties hv ho he⟩

/-! ### An offered symbol through a run -/

/-- `w` offers the symbol that `u` offers, with no transfer made between them. -/
structure SameOffer (u w : State p) : Prop where
  valid : w.symValid = true
  fetch : w.fetch = u.fetch
  xfers : w.xfers = u.xfers

theorem SameOffer.symData {u w : State p} {v : Symbol p} (h : SameOffer u w) (hu : u.symData = some v) :
    w.symData = some v :=
  State.symData_eq_some_iff.2 ⟨h.valid, h.fetch ▸ (State.symData_eq_some_iff.1 hu).2⟩

section
variable {f : Nat → PortIn p} {s u : State p} {B : List Bool}

/-- A run goes on after a cycle that leaves ST = RUN. -/
theorem InRun.succ {j : Nat} (h : InRun f s j u) (hst : (driven f s (j + 1)).st = .run) :
    InRun f s (j + 1) (driven f s (j + 1)) := by
  obtain ⟨-, -, hrun⟩ := inRun_iff.1 h
  refine inRun_iff.2 ⟨j.succ_pos, rfl, fun i h0 hi => ?_⟩
  rcases Nat.le_succ_iff.1 hi with hi | rfl
  · exact hrun i h0 hi
  · exact hst

/-- One cycle of a dutiful run in which the sink does not take the symbol offered: the run goes on, and the next cycle
makes the same offer. -/
theorem InRun.sameOffer_succ {i : Nat} {w : State p} (hduties : SourceDuties B f s) (hkept : NotAbandoned f s)
    (hrun : InRun f s i w) (h : SameOffer u w) (hno : w.putsSymbol = false) :
    InRun f s (i + 1) (driven f s (i + 1)) ∧ SameOffer u (driven f s (i + 1)) := by
  obtain ⟨-, hw, -⟩ := inRun_iff.1 hrun
  have hnow : w.now = f i := by rw [← hw, driven_now]
  have hready : w.now.symReady = false := by simpa [State.putsSymbol, h.valid] using hno
  have hnext : driven f s (i + 1) = w.tick.withNow (f (i + 1)) := by
    rw [driven, hw, stepNext_of_untaken_symbol h.valid hready]
  have hst : (driven f s (i + 1)).st = w.st := by rw [hnext]; rfl
  have hfetch : (driven f s (i + 1)).fetch = w.fetch := by rw [hnext]; rfl
  have hrun' := hrun.succ (hst.trans (State.symValid_iff.1 h.valid).2.1)
  refine ⟨hrun', State.symValid_of_duties hst hfetch h.valid ?_ ?_ ?_, hfetch.trans h.fetch, ?_⟩
  · rw [driven_now]; exact hkept _ _ hrun'
  · rw [driven_now]; exact hduties.holdsOffer _ _ _ hrun hrun'
  · rw [driven_now, hnow]; exact hduties.holdsEos _ _ _ hrun hrun'
  · rw [hnext]; exact h.xfers

/-- In a dutiful run a symbol is offered unchanged as long as the sink has not taken it. -/
theorem InRun.sameOffer_until {j k : Nat} (hduties : SourceDuties B f s) (hkept : NotAbandoned f s)
    (hrun : InRun f s j u) (hv : u.symValid = true)
    (hno : ∀ i, j ≤ i → i < k → (driven f s i).putsSymbol = false) {i : Nat} (hi : j ≤ i) (hk : i ≤ k) :
    InRun f s i (driven f s i) ∧ SameOffer u (driven f s i) := by
  induction i, hi using Nat.le_induction with
  | base =>
    obtain ⟨-, rfl, -⟩ := inRun_iff.1 hrun
    exact ⟨hrun, hv, rfl, rfl⟩
  | succ i hi ih =>
    obtain ⟨hruni, hoffer⟩ := ih (by omega)
    exact hruni.sameOffer_succ hduties hkept hoffer (hno i hi (by omega))

/-- The first cycle from `j` on in which the sink takes a symbol. -/
theorem SinkAccepts.first {j : Nat} (h : SinkAccepts f s) (hrun : InRun f s j u) (hv : u.symValid = true) :
    ∃ k, j ≤ k ∧ (driven f s k).putsSymbol = true ∧ ∀ i, j ≤ i → i < k → (driven f s i).putsSymbol = false := by
  have hex : ∃ k, j ≤ k ∧ (driven f s k).putsSymbol = true := by
    obtain ⟨k, v, hjk, hdrive, hputs⟩ := h j u hrun hv
    rw [drive_eq, Host.Outcome.next.injEq] at hdrive
    exact ⟨k, hjk, hdrive ▸ hputs⟩
  obtain ⟨hjk, hputs⟩ := Nat.find_spec hex
  refine ⟨Nat.find hex, hjk, hputs, fun i hji hi => ?_⟩
  simpa [hji] using Nat.find_min hex hi

end

end Sys2Proof.Machine

namespace Sys2Proof.Proofs

open Sys2Proof.Machine

/-- Settles O54: the first cycle in which the sink takes a symbol is the one, since up to it each step stalls. -/
theorem offeredSymbolReachesTheSink : Obligations.OfferedSymbolReachesTheSink := by
  intro p f s u B j v _ hduties haccepts hkept hrun hdata
  have hv := (State.symData_eq_some_iff.1 hdata).1
  obtain ⟨k, hjk, hputs, hno⟩ := haccepts.first hrun hv
  have huntil {i : Nat} (hji : j ≤ i) (hik : i ≤ k) := hrun.sameOffer_until hduties hkept hv hno hji hik
  refine ⟨k, driven f s k, hjk, (huntil hjk le_rfl).1, hputs, fun i x hji hik hx => ?_⟩
  rw [drive_eq, Host.Outcome.next.injEq] at hx
  have hoffer : SameOffer u x := hx ▸ (huntil hji hik).2
  exact ⟨hoffer.valid, hoffer.symData hdata, hoffer.xfers⟩

/-- Settles O34: the step stalls, so the same node offers its symbol again. -/
theorem offeredSymbolIsHeld : Obligations.OfferedSymbolIsHeld := by
  intro s t hstep hv hready hrst ho he
  have ht : t = s.tick := by rw [← step_eq_next_iff.1 hstep, stepNext_of_untaken_symbol hv hready]
  have hfetch : t.fetch = s.fetch := by rw [ht, State.tick_fetch]
  have hvt : t.symValid = true := State.symValid_of_duties (by rw [ht]; rfl) hfetch hv hrst ho he
  exact ⟨hvt, by rw [State.symData, State.symData, hvt, hv, hfetch]⟩

/-- Settles O42: no step of a run is a LOAD. -/
theorem nodeIsConstantDuringARun : Obligations.NodeIsConstantDuringARun := by
  intro p s u B k j hrun hj hu a
  rw [run_eq_stepsFrom, Host.Outcome.next.injEq] at hu
  rw [← hu, hrun.stepsFrom_nodeAt hj]

/-- Settles O13: a step reads the bit source through `BitPeek` only. -/
theorem bitPeekReadsTheBitSource : Obligations.BitPeekReadsTheBitSource := by
  refine ⟨fun p x => ⟨fun hv => PortIn.peek_bit.2 ⟨hv, rfl⟩, fun hv he => PortIn.peek_eos.2 ⟨hv, he⟩,
    fun hv he => PortIn.peek_wait.2 ⟨hv, he⟩⟩, fun s x => ⟨fun hv => ?_, fun hv => ?_⟩⟩
  · exact step_withNow_of_peek rfl rfl rfl rfl (by simp [PortIn.peek, hv])
  · exact step_withNow_of_peek rfl rfl rfl rfl (by simp [PortIn.peek, hv])

/-- Settles O55: START finds the root that the LOAD left. -/
theorem startSeesTheLoadBeforeIt : Obligations.StartSeesTheLoadBeforeIt := by
  intro a d s hidle
  have hroot : (((s.accept (.load a d)).setNode a d).tick.accept .start).root =
      if a = 0#_ then d else s.nodeAt 0#_ := by
    simp only [State.root, State.accept_nodeAt, State.tick_nodeAt, State.setNode_nodeAt, eq_comm]
  obtain ⟨hpos, hresult⟩ :=
    State.startRun_of_idle (s := ((s.accept (.load a d)).setNode a d).tick.accept .start) hidle
  exact ⟨_, _, rfl, rfl, hpos, fun b => by simp, hroot ▸ hresult⟩

end Sys2Proof.Proofs
end

section
/-! PROOF. The bits a field is, how the two decoders behave and what they distinguish, and the statements about the
encoding of an instruction. -/

namespace Sys2Proof

variable {p : Params}

/-! ### A field as a number (rules R82 to R85, R88 and R92) -/

/-- A field is the word divided by the weight of the field's lowest bit, modulo the field's range. -/
theorem toNat_extractLsb'_eq_div_mod {n : Nat} (w : BitVec n) (start len : Nat) :
    (w.extractLsb' start len).toNat = w.toNat / 2 ^ start % 2 ^ len := by
  rw [BitVec.extractLsb'_toNat, Nat.shiftRight_eq_div_pow]

/-- A field that reaches the word's top bit is a quotient alone. -/
theorem toNat_extractLsb'_top {n : Nat} (w : BitVec n) {start len : Nat} (h : n = start + len) :
    (w.extractLsb' start len).toNat = w.toNat / 2 ^ start := by
  have hlt : w.toNat < 2 ^ start * 2 ^ len := by rw [← Nat.pow_add, ← h]; exact w.isLt
  rw [toNat_extractLsb'_eq_div_mod, Nat.mod_eq_of_lt (Nat.div_lt_of_lt_mul hlt)]

/-- A field at bit 0 is a remainder alone. -/
theorem toNat_extractLsb'_zero {n : Nat} (w : BitVec n) (len : Nat) :
    (w.extractLsb' 0 len).toNat = w.toNat % 2 ^ len := by
  rw [toNat_extractLsb'_eq_div_mod, Nat.pow_zero, Nat.div_one]

/-! ### What the decoders keep of a word (rules R82, R86, R89 and R90) -/

/-- A decoded node word keeps its kind bits as its opcode. -/
@[simp] theorem opcode_decodeNode (w : NodeWord p) : (decodeNode w).opcode = kindBits w := by
  unfold decodeNode kind
  generalize kindBits w = b
  fin_cases b <;> rfl

/-- A decoded command word keeps its op bits as its opcode. -/
@[simp] theorem opcode_decodeCommand (c : CmdWord p) : (decodeCommand c).opcode = opBits c := by
  unfold decodeCommand op
  generalize opBits c = b
  fin_cases b <;> rfl

/-- Node words that decode alike have one kind. -/
theorem kind_eq_of_decodeNode_eq {w w' : NodeWord p} (h : decodeNode w = decodeNode w') : kind w = kind w' := by
  rw [kind, kind, ← opcode_decodeNode, h, opcode_decodeNode]

/-- Command words that decode alike have the same op bits. -/
theorem opBits_eq_of_decodeCommand_eq {c c' : CmdWord p} (h : decodeCommand c = decodeCommand c') :
    opBits c = opBits c' := by
  rw [← opcode_decodeCommand, h, opcode_decodeCommand]

/-- A command word is determined by its op bits and the two fields LOAD uses (rule R87). -/
theorem eq_of_command_fields {c c' : CmdWord p} (hop : opBits c = opBits c') (haddr : addr c = addr c')
    (hdata : data c = data c') : c = c' := by
  rw [← packCommand_fields c, hop, haddr, hdata, packCommand_fields]

/-! ### Raw numbers (rules R80 and R93) -/

/-- A number is read as a word of a format exactly when it fits the format. -/
theorem decodeRaw_isOk_iff {f : Format} {w : Nat} :
    (∃ i : Instr p, decodeRaw p f w = .ok i) ↔ Format.fits p f w = true := by
  cases f with
  | command | node => simp only [decodeRaw]; split <;> simp [*]

end Sys2Proof

namespace Sys2Proof.Proofs

/-- Settles O1: each case packs the instruction's own opcode and operands, and the decoder reads them back. -/
theorem encodeThenDecodeGivesBackInstruction : Obligations.EncodeThenDecodeGivesBackInstruction := by
  intro p i
  cases i with
  | nop | load a d | start | clear => simp [encode, decode, decodeCommand, opOfBits]
  | empty | int l r | leaf v | rsvd3 => simp [encode, decode, decodeNode, kindOfBits]

/-- Settles O2: words that decode alike have one kind, and for each kind the operands are the fields it uses. -/
theorem nodeDecoderReadsExactlyTheUsedFields : Obligations.NodeDecoderReadsExactlyTheUsedFields := by
  intro p w w'
  have hkind := kind_eq_of_decodeNode_eq (w := w) (w' := w')
  by_cases hk : kind w = kind w'
  · cases hw : kind w <;> simp [decodeNode, hk ▸ hw, hw]
  · exact iff_of_false (fun h => hk (hkind h)) (fun h => hk h.1)

/-- Settles O3: the op bits survive decoding, and with addr and data they are the whole word. -/
theorem commandDecoderReadsExactlyTheUsedFields : Obligations.CommandDecoderReadsExactlyTheUsedFields := by
  intro p c c'
  constructor
  · intro h
    have hbits := opBits_eq_of_decodeCommand_eq h
    have hop : op c = op c' := congrArg opOfBits hbits
    refine ⟨hop, fun hload => ?_⟩
    simp only [decodeCommand, hload, hop ▸ hload, Instr.load.injEq] at h
    exact eq_of_command_fields hbits h.1 h.2
  · rintro ⟨hop, hload⟩
    cases hc : op c with
    | load => rw [hload hc]
    | nop | start | clear => simp [decodeCommand, hop ▸ hc, hc]

/-- Settles O4: the kind and the op are the top bits of their words, so their quotients need no remainder. -/
theorem fieldsAreTheBitsTheSpecNames : Obligations.FieldsAreTheBitsTheSpecNames := by
  intro p w c
  have hnode : p.nodeW = p.payloadW + 2 := Nat.add_comm ..
  have hcmd : p.cmdW = p.idxW + p.nodeW + 2 := by unfold Params.cmdW; omega
  refine ⟨?_, toNat_extractLsb'_eq_div_mod w _ _, toNat_extractLsb'_zero w _, toNat_extractLsb'_zero w _, ?_,
    toNat_extractLsb'_eq_div_mod c _ _, toNat_extractLsb'_zero c _⟩
  · rw [show p.nodeW - 2 = p.payloadW by omega]; exact toNat_extractLsb'_top w hnode
  · rw [show p.cmdW - 2 = p.idxW + p.nodeW by omega]; exact toNat_extractLsb'_top c hcmd

/-- Settles O5. -/
theorem specWordsDecode : Obligations.SpecWordsDecode := by
  unfold Obligations.SpecWordsDecode
  decide

/-- Settles O6: each format's only refusal is its width test. -/
theorem everyWordOfAFormatDecodes : Obligations.EveryWordOfAFormatDecodes := by
  intro p f w
  rw [decodeRaw_isOk_iff, Format.fits, decide_eq_true_iff]

end Sys2Proof.Proofs
end

section
/-! PROOF. What the LOADs of an image store, how a new child changes the paths of an image, what each loop of the
assembler adds, and the statements about the assembler. -/

namespace Sys2Proof.Machine

variable {p : Params}

/-! ### The LOADs of an image (rule R101) -/

/-- The LOADs of an image from index `i` on store its words from `i` on and change nothing else. -/
theorem execAll_loadsFrom (img : Image p) {i : Nat} (s : State p) (h : i + img.length ≤ 2 ^ p.idxW) :
    ∃ t, execAll (loadsFrom i img) s = .next t ∧ t.st = s.st ∧ t.code = s.code ∧ t.pos = s.pos ∧
      ∀ a : Index p, t.nodeAt a = if a.toNat < i then s.nodeAt a else img.getD (a.toNat - i) (s.nodeAt a) := by
  induction img generalizing i s with
  | nil => exact ⟨s, rfl, rfl, rfl, rfl, fun a => by simp⟩
  | cons w ws ih =>
    rw [List.length_cons] at h
    obtain ⟨t, ht, hst, hcode, hpos, hnode⟩ :=
      ih (i := i + 1) (effect (.load (BitVec.ofNat _ i) w) s).tick (by omega)
    refine ⟨t, by simpa only [loadsFrom, execAll, execAt_eq] using ht, hst, hcode, hpos, fun a => ?_⟩
    have hi : (BitVec.ofNat p.idxW i).toNat = i := by simpa using Nat.mod_eq_of_lt (by omega)
    have ha : a = BitVec.ofNat _ i ↔ a.toNat = i := by rw [← BitVec.toNat_inj, hi]
    rw [hnode a]
    simp only [effect, State.tick_nodeAt, State.setNode_nodeAt, State.accept_nodeAt, ha]
    rcases Nat.lt_trichotomy a.toNat i with hlt | heq | hgt
    · simp [hlt, hlt.ne, Nat.lt_succ_of_lt hlt]
    · simp [heq]
    · simp [show ¬ a.toNat < i + 1 by omega, show ¬ a.toNat < i by omega, hgt.ne',
        show a.toNat - i = a.toNat - (i + 1) + 1 by omega]

/-! ### Paths by their last edge (rules R94 and R178) -/

/-- The word at `y` is an INT word whose child on the bit `b` is `z`, and `z` is not 0. -/
def IsEdge (N : Index p → NodeWord p) (y : Index p) (b : Bool) (z : Index p) : Prop :=
  kind (N y) = .int ∧ childIndex (left (N y)) (right (N y)) b = z ∧ z ≠ 0#p.idxW

/-- A path of one bit is an edge. -/
theorem follow_singleton {N : Index p → NodeWord p} {y z : Index p} {b : Bool} :
    follow N y [b] = some z ↔ IsEdge N y b z := by
  unfold IsEdge
  simp only [follow]
  cases kind (N y) with
  | int =>
    simp only [Option.ite_none_left_eq_some, Option.some.injEq, true_and]
    exact ⟨fun ⟨h0, hz⟩ => ⟨hz, hz ▸ h0⟩, fun ⟨hz, h0⟩ => ⟨hz ▸ h0, hz⟩⟩
  | empty | leaf | rsvd3 => simp

/-- A path one bit longer is a path and an edge from its end. -/
theorem follow_concat {N : Index p → NodeWord p} {i z : Index p} {bs : List Bool} {b : Bool} :
    follow N i (bs ++ [b]) = some z ↔ ∃ y, follow N i bs = some y ∧ IsEdge N y b z := by
  cases h : follow N i bs with
  | none => simp [follow_append_none N [b] h]
  | some y => simp [follow_append N [b] h, follow_singleton]

/-- From a word without an edge only the empty path leads anywhere. -/
theorem follow_of_no_edge {N : Index p → NodeWord p} {i x : Index p} {bs : List Bool}
    (h : ∀ b z, ¬ IsEdge N i b z) : follow N i bs = some x ↔ bs = [] ∧ x = i := by
  cases bs with
  | nil => simp [follow, eq_comm]
  | cons b bs =>
    have hnone : follow N i [b] = none := Option.eq_none_iff_forall_ne_some.2 fun z hz => h b z (follow_singleton.1 hz)
    have hcons : follow N i (b :: bs) = none := follow_append_none N bs hnone
    simp [hcons]

/-! ### A new child (rule R98) -/

/-- A new child succeeds exactly when an index is left for it. -/
theorem Image.newChild_eq_ok_iff {img img' : Image p} {c : Nat} {b : Bool} {w : NodeWord p} :
    img.newChild c b w = .ok img' ↔ img.length < 2 ^ p.idxW ∧ img' = (img ++ [w]).setChild c b img.length := by
  unfold Image.newChild
  split
  · simp; omega
  · simp [eq_comm]; omega

/-- The word at a place of an image with one more word. -/
theorem Image.at_append_singleton (img : Image p) (w : NodeWord p) (i : Nat) :
    Image.at (img ++ [w]) i = if i = img.length then w else img.at i := by
  unfold Image.at
  rcases Nat.lt_trichotomy i img.length with h | h | h
  · simp [h.ne, List.getElem?_append_left h]
  · simp [h]
  · simp [h.ne', h.le, List.getElem?_eq_none (show (img ++ [w]).length ≤ i by simpa using h)]

/-- Beyond its end an image reads as EMPTY. -/
theorem Image.at_of_length_le {img : Image p} {i : Nat} (h : img.length ≤ i) : img.at i = emptyWord := by
  simp [Image.at, List.getD_eq_getElem?_getD, h]

/-- The child of the word that gets a new child is the new index on the bit taken, and as before on the other. -/
theorem Image.setChild_nodes_self (img : Image p) {x : Index p} (b : Bool) (j : Nat) (h : x.toNat < img.length) :
    ∃ l r, (img.setChild x.toNat b j).nodes x = intWord l r ∧ ∀ c, childIndex l r c =
      if c = b then BitVec.ofNat _ j else childIndex (left (img.nodes x)) (right (img.nodes x)) c := by
  rw [Image.nodes_eq_at, Image.setChild_at_self img b j h]
  cases b with
  | false | true => exact ⟨_, _, rfl, fun c => by cases c <;> rfl⟩

/-! ### Trees in an image, and growing one (rules R94 and R98) -/

/-- The words of an image that paths from index 0 reach form a tree inside the image: each by one path, each INT or
LEAF, or the EMPTY word an assembly starts from. -/
structure Image.Tree (img : Image p) : Prop where
  nonempty : 0 < img.length
  fits : img.length ≤ 2 ^ p.idxW
  inside : ∀ {bs x}, follow img.nodes 0#p.idxW bs = some x → x.toNat < img.length
  unique : ∀ {bs cs x}, follow img.nodes 0#p.idxW bs = some x → follow img.nodes 0#p.idxW cs = some x → bs = cs
  kinds : ∀ {bs x}, follow img.nodes 0#p.idxW bs = some x →
    kind (img.nodes x) = .int ∨ kind (img.nodes x) = .leaf ∨ x = 0#p.idxW ∧ kind (img.nodes x) = .empty

/-- The next unused index (rule R98). -/
def Image.next (img : Image p) : Index p := BitVec.ofNat p.idxW img.length

theorem Image.next_toNat {img : Image p} (h : img.length < 2 ^ p.idxW) : img.next.toNat = img.length := by
  simpa [Image.next] using Nat.mod_eq_of_lt h

/-- A word as it is created: a LEAF, or an INT word with both children absent. -/
def Fresh (w : NodeWord p) : Prop := kind w = .leaf ∨ w = intWord 0 0

theorem fresh_leafWord (s : Symbol p) : Fresh (leafWord s) := .inl (kind_leafWord s)

theorem fresh_intWord : Fresh (intWord 0 0 : NodeWord p) := .inr rfl

/-- A fresh word is INT or LEAF. -/
theorem Fresh.kind_int_or_leaf {w : NodeWord p} (h : Fresh w) : kind w = .int ∨ kind w = .leaf := by
  obtain h | rfl := h
  · exact .inr h
  · exact .inl (kind_intWord 0 0)

/-- No edge leaves a fresh word. -/
theorem Fresh.no_edge {N : Index p → NodeWord p} {y : Index p} (h : Fresh (N y)) (b : Bool) (z : Index p) :
    ¬ IsEdge N y b z := by
  rintro ⟨hk, hz, h0⟩
  obtain h | h := h
  · rw [h] at hk; cases hk
  · simp only [h, left_intWord, right_intWord, childIndex, ite_self] at hz
    exact h0 hz.symm

/-- `img'` is the tree `img` with the fresh word `w` as the child, on the bit `b`, of the INT word `x` at the end of
the path `pre`. -/
structure Image.Grows (img img' : Image p) (pre : List Bool) (x : Index p) (b : Bool) (w : NodeWord p) : Prop where
  tree : img.Tree
  path : follow img.nodes 0#p.idxW pre = some x
  parent : kind (img.nodes x) = .int
  absent : childIndex (left (img.nodes x)) (right (img.nodes x)) b = 0#p.idxW
  fresh : Fresh w
  created : img.newChild x.toNat b w = .ok img'

namespace Image.Grows

variable {img img' : Image p} {pre : List Bool} {x : Index p} {b : Bool} {w : NodeWord p}

theorem room (g : img.Grows img' pre x b w) : img.length < 2 ^ p.idxW := (newChild_eq_ok_iff.1 g.created).1

theorem eq_setChild (g : img.Grows img' pre x b w) : img' = (img ++ [w]).setChild x.toNat b img.length :=
  (newChild_eq_ok_iff.1 g.created).2

theorem length_eq (g : img.Grows img' pre x b w) : img'.length = img.length + 1 := by
  simp [g.eq_setChild]

theorem next_toNat (g : img.Grows img' pre x b w) : img.next.toNat = img.length := Image.next_toNat g.room

/-- No path of the old tree reaches the new index. -/
theorem ne_next (g : img.Grows img' pre x b w) {bs : List Bool} {y : Index p}
    (h : follow img.nodes 0#p.idxW bs = some y) : y ≠ img.next := by
  rintro rfl
  exact (g.tree.inside h).ne g.next_toNat

/-- Index 0 is taken from the start, so the new index is not absent. -/
theorem next_ne_zero (g : img.Grows img' pre x b w) : img.next ≠ 0#p.idxW :=
  (g.ne_next (bs := []) rfl).symm

theorem nodes_next (g : img.Grows img' pre x b w) : img'.nodes img.next = w := by
  have hne : img.length ≠ x.toNat := (g.tree.inside g.path).ne'
  rw [nodes_eq_at, g.next_toNat, g.eq_setChild, setChild_at_ne _ _ _ hne, at_append_singleton, if_pos rfl]

/-- Every word but the parent and the new one is as before. -/
theorem nodes_of_ne (g : img.Grows img' pre x b w) {y : Index p} (hx : y ≠ x) (hn : y ≠ img.next) :
    img'.nodes y = img.nodes y := by
  have hxy : y.toNat ≠ x.toNat := fun h => hx (BitVec.eq_of_toNat_eq h)
  have hny : y.toNat ≠ img.length := fun h => hn (BitVec.eq_of_toNat_eq (h.trans g.next_toNat.symm))
  rw [nodes_eq_at, g.eq_setChild, setChild_at_ne _ _ _ hxy, at_append_singleton, if_neg hny, nodes_eq_at]

/-- The parent is an INT word with the new index on the bit taken and its other child as before. -/
theorem nodes_parent (g : img.Grows img' pre x b w) : ∃ l r, img'.nodes x = intWord l r ∧ ∀ c, childIndex l r c =
    if c = b then img.next else childIndex (left (img.nodes x)) (right (img.nodes x)) c := by
  have hx := g.tree.inside g.path
  have hlt : x.toNat < (img ++ [w]).length := by simp; omega
  have hold : Image.nodes (img ++ [w]) x = img.nodes x := by
    rw [nodes_eq_at, at_append_singleton, if_neg hx.ne, nodes_eq_at]
  have h := setChild_nodes_self (img ++ [w]) b img.length hlt
  rwa [hold, ← g.eq_setChild] at h

theorem kind_parent (g : img.Grows img' pre x b w) : kind (img'.nodes x) = .int := by
  obtain ⟨l, r, hnode, -⟩ := g.nodes_parent
  rw [hnode, kind_intWord]

/-- The old tree has no edge from the new index, where it reads as EMPTY. -/
theorem no_edge_next (g : img.Grows img' pre x b w) (c : Bool) (z : Index p) : ¬ IsEdge img.nodes img.next c z := by
  rintro ⟨hk, -⟩
  rw [nodes_eq_at, at_of_length_le g.next_toNat.ge, kind_emptyWord] at hk
  cases hk

/-- The new tree has the edges of the old one and the edge to the new word. -/
theorem isEdge_iff (g : img.Grows img' pre x b w) {y z : Index p} {c : Bool} :
    IsEdge img'.nodes y c z ↔ IsEdge img.nodes y c z ∨ y = x ∧ c = b ∧ z = img.next := by
  have hxn := g.ne_next g.path
  by_cases hx : y = x
  · subst hx
    obtain ⟨l, r, hnode, hchild⟩ := g.nodes_parent
    simp only [IsEdge, hnode, kind_intWord, left_intWord, right_intWord, hchild, g.parent, true_and]
    by_cases hc : c = b
    · subst hc
      simp only [if_true, g.absent]
      constructor
      · rintro ⟨rfl, -⟩; exact .inr ⟨trivial, rfl⟩
      · rintro (⟨rfl, h0⟩ | ⟨-, rfl⟩)
        · exact absurd rfl h0
        · exact ⟨rfl, g.next_ne_zero⟩
    · simp [hc]
  · by_cases hn : y = img.next
    · subst hn
      have hnew : Fresh (img'.nodes img.next) := g.nodes_next.symm ▸ g.fresh
      simp only [hnew.no_edge, g.no_edge_next, hx, false_and, or_false]
    · simp [IsEdge, g.nodes_of_ne hx hn, hx]

/-- The new tree has the paths of the old one and the path to the new word. -/
theorem follow_iff (g : img.Grows img' pre x b w) {bs : List Bool} {z : Index p} :
    follow img'.nodes 0#p.idxW bs = some z ↔
      follow img.nodes 0#p.idxW bs = some z ∨ bs = pre ++ [b] ∧ z = img.next := by
  induction bs using List.reverseRecOn generalizing z with
  | nil => simp [follow]
  | append_singleton bs c ih =>
    simp only [follow_concat, ih, g.isEdge_iff]
    constructor
    · rintro ⟨y, hy | ⟨rfl, rfl⟩, he | ⟨rfl, rfl, rfl⟩⟩
      · exact .inl ⟨y, hy, he⟩
      · exact .inr ⟨by rw [g.tree.unique hy g.path], rfl⟩
      · exact absurd he (g.no_edge_next c z)
      · exact absurd rfl (g.ne_next g.path)
    · rintro (⟨y, hy, he⟩ | ⟨hbs, rfl⟩)
      · exact ⟨y, .inl hy, .inl he⟩
      · obtain ⟨rfl, rfl⟩ := List.append_singleton_inj.1 hbs
        exact ⟨x, .inl g.path, .inr ⟨rfl, rfl, rfl⟩⟩

theorem path_next (g : img.Grows img' pre x b w) : follow img'.nodes 0#p.idxW (pre ++ [b]) = some img.next :=
  g.follow_iff.2 (.inr ⟨rfl, rfl⟩)

/-- A grown tree is a tree. -/
theorem grown_tree (g : img.Grows img' pre x b w) : img'.Tree where
  nonempty := by rw [g.length_eq]; omega
  fits := by rw [g.length_eq]; exact g.room
  inside h := by
    rw [g.length_eq]
    obtain h | ⟨-, rfl⟩ := g.follow_iff.1 h
    · exact Nat.lt_succ_of_lt (g.tree.inside h)
    · rw [g.next_toNat]; omega
  unique h h' := by
    obtain h | ⟨hbs, rfl⟩ := g.follow_iff.1 h <;> obtain h' | ⟨hcs, hy⟩ := g.follow_iff.1 h'
    · exact g.tree.unique h h'
    · exact absurd hy (g.ne_next h)
    · exact absurd rfl (g.ne_next h')
    · rw [hbs, hcs]
  kinds {bs y} h := by
    obtain h | ⟨-, rfl⟩ := g.follow_iff.1 h
    · by_cases hy : y = x
      · exact .inl (hy ▸ g.kind_parent)
      · rw [g.nodes_of_ne hy (g.ne_next h)]; exact g.tree.kinds h
    · rw [g.nodes_next]; exact g.fresh.kind_int_or_leaf.imp_right .inl

end Image.Grows

/-! ### The codes of an image -/

/-- `bs` is the path to a LEAF with the symbol `v`. -/
def Image.Codes (img : Image p) (bs : List Bool) (v : Symbol p) : Prop :=
  ∃ x, IsLeafPath img.nodes bs x ∧ sym (img.nodes x) = v

/-- A grown tree has the codes of the old one, and the new word's if that is a LEAF. -/
theorem Image.Grows.codes_iff {img img' : Image p} {pre : List Bool} {x : Index p} {b : Bool} {w : NodeWord p}
    (g : img.Grows img' pre x b w) {bs : List Bool} {v : Symbol p} :
    img'.Codes bs v ↔ img.Codes bs v ∨ bs = pre ++ [b] ∧ kind w = .leaf ∧ sym w = v := by
  have hold {y : Index p} (hy : y ≠ img.next) (hk : kind (img'.nodes y) = .leaf ∨ kind (img.nodes y) = .leaf) :
      img'.nodes y = img.nodes y := by
    refine g.nodes_of_ne (fun hx => ?_) hy
    subst hx
    simp [g.kind_parent, g.parent] at hk
  constructor
  · rintro ⟨y, ⟨hpath, hleaf⟩, hsym⟩
    obtain hpath | ⟨hbs, rfl⟩ := g.follow_iff.1 hpath
    · have hnode := hold (g.ne_next hpath) (.inl hleaf)
      exact .inl ⟨y, ⟨hpath, hnode ▸ hleaf⟩, hnode ▸ hsym⟩
    · rw [g.nodes_next] at hleaf hsym
      exact .inr ⟨hbs, hleaf, hsym⟩
  · rintro (⟨y, ⟨hpath, hleaf⟩, hsym⟩ | ⟨rfl, hleaf, hsym⟩)
    · have hnode := hold (g.ne_next hpath) (.inr hleaf)
      exact ⟨y, ⟨g.follow_iff.2 (.inl hpath), hnode ▸ hleaf⟩, hnode ▸ hsym⟩
    · exact ⟨img.next, ⟨g.path_next, g.nodes_next.symm ▸ hleaf⟩, g.nodes_next.symm ▸ hsym⟩

/-- `img'` is a tree with the codes of `img` and one more, `bs` for the symbol `v`. -/
structure Image.Adds (img img' : Image p) (bs : List Bool) (v : Symbol p) : Prop where
  tree : img'.Tree
  codes_iff : ∀ {cs u}, img'.Codes cs u ↔ img.Codes cs u ∨ cs = bs ∧ u = v

/-! ### The inner loop of `Assemble` (rule R98) -/

/-- Only '0' and '1' are bits of a bit-string (rule R99). -/
theorem bitOfChar_eq_ok_iff {c : Char} {b : Bool} :
    bitOfChar c = .ok b ↔ (c = '0' ∨ c = '1') ∧ decide (c = '1') = b := by
  unfold bitOfChar
  split
  · simp_all
  · split <;> simp_all

/-- What one pass of the inner loop can be, if the record is accepted: the last, which makes a LEAF, one that makes a
placeholder, or one that walks to a word that is there. -/
theorem Image.insertPath_cons_eq_ok {img img' : Image p} {cur : Nat} {s : Symbol p} {c : Char} {cs : List Char}
    (h : img.insertPath cur s (c :: cs) = .ok img') :
    ∃ b, bitOfChar c = .ok b ∧ kind (img.at cur) ≠ .leaf ∧
      ∃ z, childIndex (left (img.at cur)) (right (img.at cur)) b = z ∧
        ((cs = [] ∧ z = 0#p.idxW ∧ img.newChild cur b (leafWord s) = .ok img') ∨
          (z = 0#p.idxW ∧ ∃ mid, img.newChild cur b (intWord 0 0) = .ok mid ∧
            mid.insertPath img.length s cs = .ok img') ∨
          (z ≠ 0#p.idxW ∧ img.insertPath z.toNat s cs = .ok img')) := by
  unfold Image.insertPath at h
  split at h
  · cases h
  · next b hb =>
    refine ⟨b, hb, ?_⟩
    split at h
    · cases h
    · next hk =>
      refine ⟨hk, _, rfl, ?_⟩
      split at h
      · split at h
        · cases h
        · next h0 => exact .inl ⟨rfl, not_not.1 h0, h⟩
      · split at h
        · next h0 =>
          split at h
          · cases h
          · next mid hmid => exact .inr (.inl ⟨h0, mid, hmid, h⟩)
        · next h0 => exact .inr (.inr ⟨h0, h⟩)

/-- An accepted bit-string has only the characters 0 and 1, and its path is added with its symbol. -/
theorem Image.insertPath_adds {s : Symbol p} {cs : List Char} {img img' : Image p} {pre : List Bool} {x : Index p}
    (T : img.Tree) (hpath : follow img.nodes 0#p.idxW pre = some x) (hx : kind (img.nodes x) ≠ .empty)
    (h : img.insertPath x.toNat s cs = .ok img') :
    (∀ c ∈ cs, c = '0' ∨ c = '1') ∧ img.Adds img' (pre ++ cs.map fun c => decide (c = '1')) s := by
  induction cs generalizing img pre x with
  | nil => simp [Image.insertPath] at h
  | cons c cs ih =>
    obtain ⟨b, hb, hleaf, z, hz, hcases⟩ := Image.insertPath_cons_eq_ok h
    rw [← Image.nodes_eq_at] at hleaf hz
    obtain ⟨hc, hb⟩ := bitOfChar_eq_ok_iff.1 hb
    have hint : kind (img.nodes x) = .int := by
      obtain hk | hk | ⟨-, hk⟩ := T.kinds hpath
      · exact hk
      · exact absurd hk hleaf
      · exact absurd hk hx
    obtain ⟨rfl, h0, hnew⟩ | ⟨h0, mid, hnew, hrest⟩ | ⟨h0, hrest⟩ := hcases
    · have g : img.Grows img' pre x b (leafWord s) := ⟨T, hpath, hint, hz.trans h0, fresh_leafWord s, hnew⟩
      refine ⟨by simpa using hc, g.grown_tree, fun {cs u} => ?_⟩
      simp [g.codes_iff, hb, eq_comm]
    · have g : img.Grows mid pre x b (intWord 0 0) := ⟨T, hpath, hint, hz.trans h0, fresh_intWord, hnew⟩
      rw [← g.next_toNat] at hrest
      obtain ⟨hcs, hadds⟩ := ih g.grown_tree g.path_next (by simp [g.nodes_next]) hrest
      refine ⟨by simpa using ⟨hc, hcs⟩, hadds.tree, fun {cs u} => ?_⟩
      simp [hadds.codes_iff, g.codes_iff, hb]
    · have hnext := follow_concat.2 ⟨x, hpath, hint, hz, h0⟩
      have hk : kind (img.nodes z) ≠ .empty := by
        obtain hk | hk | ⟨hroot, -⟩ := T.kinds hnext
        · simp [hk]
        · simp [hk]
        · exact absurd hroot h0
      obtain ⟨hcs, hadds⟩ := ih T hnext hk hrest
      refine ⟨by simpa using ⟨hc, hcs⟩, hadds.tree, fun {cs u} => ?_⟩
      simp [hadds.codes_iff, hb]

/-! ### The outer loop of `Assemble` (rules R98 and R100) -/

/-- An image whose root has no child is a tree of the root alone. -/
theorem Image.tree_of_no_edge {img : Image p} (hpos : 0 < img.length) (hfits : img.length ≤ 2 ^ p.idxW)
    (hroot : Fresh (img.nodes 0#p.idxW) ∨ kind (img.nodes 0#p.idxW) = .empty)
    (hedge : ∀ b z, ¬ IsEdge img.nodes 0#p.idxW b z) : img.Tree where
  nonempty := hpos
  fits := hfits
  inside h := by
    obtain ⟨-, rfl⟩ := (follow_of_no_edge hedge).1 h
    simpa using hpos
  unique h h' := ((follow_of_no_edge hedge).1 h).1.trans ((follow_of_no_edge hedge).1 h').1.symm
  kinds h := by
    obtain ⟨-, rfl⟩ := (follow_of_no_edge hedge).1 h
    obtain hfresh | hempty := hroot
    · exact hfresh.kind_int_or_leaf.imp_right .inl
    · exact .inr (.inr ⟨rfl, hempty⟩)

/-- An image whose root has no child has at most the code of the root. -/
theorem Image.codes_of_no_edge {img : Image p} (hedge : ∀ b z, ¬ IsEdge img.nodes 0#p.idxW b z) {bs : List Bool}
    {v : Symbol p} : img.Codes bs v ↔
      bs = [] ∧ kind (img.nodes 0#p.idxW) = .leaf ∧ sym (img.nodes 0#p.idxW) = v := by
  simp only [Image.Codes, IsLeafPath, follow_of_no_edge hedge]
  constructor
  · rintro ⟨x, ⟨⟨hbs, rfl⟩, hleaf⟩, hsym⟩; exact ⟨hbs, hleaf, hsym⟩
  · rintro ⟨hbs, hleaf, hsym⟩; exact ⟨_, ⟨⟨hbs, rfl⟩, hleaf⟩, hsym⟩

/-- No edge leaves an EMPTY word. -/
theorem no_edge_of_empty {N : Index p → NodeWord p} {y : Index p} (h : kind (N y) = .empty) (b : Bool) (z : Index p) :
    ¬ IsEdge N y b z := by
  rintro ⟨hk, -⟩
  rw [h] at hk; cases hk

/-- An image whose root is EMPTY has no code. -/
theorem Image.not_codes_of_empty {img : Image p} (h : kind (img.nodes 0#p.idxW) = .empty) {bs : List Bool}
    {v : Symbol p} : ¬ img.Codes bs v := by
  simp [Image.codes_of_no_edge (no_edge_of_empty h), h]

theorem Image.nodes_set_root {img : Image p} (h : 0 < img.length) (w : NodeWord p) :
    Image.nodes (img.set 0 w) 0#p.idxW = w := by
  simp [Image.nodes, Image.at, List.getD_eq_getElem?_getD, h]

/-- A fresh word put at the root is a tree of that word alone. -/
theorem Image.Tree.set_root {img : Image p} (T : img.Tree) {w : NodeWord p} (hw : Fresh w) :
    Image.Tree (img.set 0 w) ∧
      ∀ {bs v}, Image.Codes (img.set 0 w) bs v ↔ bs = [] ∧ kind w = .leaf ∧ sym w = v := by
  have hroot := Image.nodes_set_root T.nonempty w
  have hfresh : Fresh (Image.nodes (img.set 0 w) 0#p.idxW) := hroot.symm ▸ hw
  refine ⟨Image.tree_of_no_edge (by simpa using T.nonempty) (by simpa using T.fits) (.inl hfresh) hfresh.no_edge,
    fun {bs v} => ?_⟩
  rw [Image.codes_of_no_edge hfresh.no_edge, hroot]

/-- What an accepted record can be: the single-leaf tree, the first path, which makes the root, or a further path. -/
theorem Image.addRecord_eq_ok {img img' : Image p} {r : Record} (h : img.addRecord r = .ok img') :
    r.symbol < 2 ^ p.symW ∧
      ((kind (img.at 0) = .empty ∧ r.bits = [] ∧ img' = img.set 0 (leafWord (BitVec.ofNat p.symW r.symbol))) ∨
        (kind (img.at 0) = .empty ∧
          Image.insertPath (img.set 0 (intWord 0 0)) 0 (BitVec.ofNat p.symW r.symbol) r.bits = .ok img') ∨
        (kind (img.at 0) ≠ .empty ∧ img.insertPath 0 (BitVec.ofNat p.symW r.symbol) r.bits = .ok img')) := by
  unfold Image.addRecord at h
  split at h
  · cases h
  · next hsym =>
    refine ⟨not_le.1 hsym, ?_⟩
    split at h
    · next hbits =>
      split at h
      · cases h
      · next hk => cases h; exact .inl ⟨not_not.1 hk, hbits, rfl⟩
    · next c bs hbits =>
      rw [hbits]
      split at h
      · next hk => exact .inr (.inl ⟨hk, h⟩)
      · next hk => exact .inr (.inr ⟨hk, h⟩)

/-- A record an assembly accepts: its symbol fits SYM_W bits and its bit-string has only the characters 0 and 1. -/
def Record.Fits (p : Params) (r : Record) : Prop := r.symbol < 2 ^ p.symW ∧ ∀ c ∈ r.bits, c = '0' ∨ c = '1'

/-- An accepted record fits, and adds its path with its symbol. -/
theorem Image.addRecord_adds {img img' : Image p} {r : Record} (T : img.Tree) (h : img.addRecord r = .ok img') :
    r.Fits p ∧ img.Adds img' r.path (BitVec.ofNat p.symW r.symbol) := by
  have hzero : (0#p.idxW).toNat = 0 := by simp
  have hat : img.at 0 = img.nodes 0#p.idxW := by rw [Image.nodes_eq_at, hzero]
  obtain ⟨hsym, hcases⟩ := Image.addRecord_eq_ok h
  rw [hat] at hcases
  obtain ⟨hk, hbits, rfl⟩ | ⟨hk, hins⟩ | ⟨hk, hins⟩ := hcases
  · obtain ⟨htree, hcodes⟩ := T.set_root (fresh_leafWord (BitVec.ofNat p.symW r.symbol))
    refine ⟨⟨hsym, by simp [hbits]⟩, htree, fun {cs u} => ?_⟩
    simp [hcodes, Image.not_codes_of_empty hk, Record.path, hbits, eq_comm]
  · obtain ⟨htree, hcodes⟩ := T.set_root fresh_intWord
    have hroot : kind (Image.nodes (img.set 0 (intWord 0 0)) 0#p.idxW) ≠ .empty := by
      rw [Image.nodes_set_root T.nonempty, kind_intWord]; decide
    obtain ⟨hchars, hadds⟩ := Image.insertPath_adds htree (pre := []) rfl hroot (hzero.symm ▸ hins)
    refine ⟨⟨hsym, hchars⟩, hadds.tree, fun {cs u} => ?_⟩
    rw [hadds.codes_iff, hcodes]
    simp [Image.not_codes_of_empty hk, Record.path]
  · obtain ⟨hchars, hadds⟩ := Image.insertPath_adds T (pre := []) rfl hk (hzero.symm ▸ hins)
    exact ⟨⟨hsym, hchars⟩, hadds⟩

/-- What an accepted list of records adds to a tree. -/
theorem Image.addRecords_eq_ok {rs : List Record} {img img' : Image p} (T : img.Tree)
    (h : img.addRecords rs = .ok img') :
    img'.Tree ∧ (∀ r ∈ rs, r.Fits p) ∧
      ∀ {bs v}, img'.Codes bs v ↔ img.Codes bs v ∨ ∃ r ∈ rs, r.path = bs ∧ r.symbol = v.toNat := by
  induction rs generalizing img with
  | nil => cases h; exact ⟨T, by simp, by simp⟩
  | cons r rs ih =>
    unfold Image.addRecords at h
    split at h
    · cases h
    · next mid hmid =>
      obtain ⟨hfits, hadds⟩ := Image.addRecord_adds T hmid
      obtain ⟨htree, hall, hcodes⟩ := ih hadds.tree h
      refine ⟨htree, List.forall_mem_cons.2 ⟨hfits, hall⟩, fun {bs v} => ?_⟩
      have hsym : v = BitVec.ofNat p.symW r.symbol ↔ r.symbol = v.toNat := by
        rw [← BitVec.toNat_inj, BitVec.toNat_ofNat, Nat.mod_eq_of_lt hfits.1, eq_comm]
      rw [hcodes, hadds.codes_iff, hsym, List.exists_mem_cons_iff, or_assoc, eq_comm (a := bs)]

/-- An assembled image is a tree whose codes are exactly the records, and each record fits. -/
theorem assemble_eq_ok {rs : List Record} {img : Image p} (h : assemble p rs = .ok img) :
    img.Tree ∧ (∀ r ∈ rs, r.Fits p) ∧ ∀ {bs v}, img.Codes bs v ↔ ∃ r ∈ rs, r.path = bs ∧ r.symbol = v.toNat := by
  have hempty : kind (Image.nodes [emptyWord] 0#p.idxW) = .empty := by simp [Image.nodes, Image.at]
  have hstart : Image.Tree (p := p) [emptyWord] :=
    Image.tree_of_no_edge Nat.one_pos Nat.one_le_two_pow (.inr hempty) (no_edge_of_empty hempty)
  obtain ⟨htree, hfits, hcodes⟩ := Image.addRecords_eq_ok hstart h
  exact ⟨htree, hfits, by simp [hcodes, Image.not_codes_of_empty hempty]⟩

end Sys2Proof.Machine

namespace Sys2Proof.Proofs

open Sys2Proof.Machine

/-- Settles O49. -/
theorem assembledTableIsSound : Obligations.AssembledTableIsSound := by
  intro p rs img h
  obtain ⟨htree, hfits, -⟩ := assemble_eq_ok h
  exact ⟨hfits, htree.nonempty, htree.fits⟩

/-- Settles O57: the codes of the image are the records, and the image is a tree. -/
theorem assembledLeavesAreTheRecords : Obligations.AssembledLeavesAreTheRecords := by
  intro p rs img h
  obtain ⟨htree, hfits, hcodes⟩ := assemble_eq_ok h
  refine ⟨fun r hr => ?_, fun bs x hpath => ?_, fun bs cs x hbs hcs => htree.unique hbs hcs⟩
  · have hval : (BitVec.ofNat p.symW r.symbol).toNat = r.symbol := by simpa using Nat.mod_eq_of_lt (hfits r hr).1
    obtain ⟨x, hpath, hsym⟩ := hcodes.2 ⟨r, hr, rfl, hval.symm⟩
    exact ⟨x, hpath, by rw [hsym, hval]⟩
  · exact hcodes.1 ⟨x, hpath, rfl⟩

/-- Settles O50. -/
theorem loadingAnImageStoresIt : Obligations.LoadingAnImageStoresIt := by
  intro p img s h
  obtain ⟨t, ht, hst, hcode, hpos, hnode⟩ := execAll_loadsFrom img (i := 0) s (by omega)
  exact ⟨t, ht, hst, hcode, hpos, fun a => by simp [hnode a]⟩

end Sys2Proof.Proofs
end

section
/-! PROOF. What a step outside RUN is, which input ports a step does not look at, and the statements about the host
commands. -/

namespace Sys2Proof.Machine

variable {p : Params}

/-! ### Steps outside RUN (rule R120) -/

/-- A step outside RUN executes the command that is offered. -/
theorem step_of_command {s : State} (hrst : s.now.rst = false) (hst : s.st ≠ .run) (hvalid : s.now.cmdValid = true) :
    step s = exec (decodeCommand s.now.cmdWord) s := by
  simp [step, cycle, hrst, hst, hvalid]

/-- A step outside RUN with no command offered only passes the clock edge. -/
theorem step_of_no_command {s : State} (hrst : s.now.rst = false) (hst : s.st ≠ .run)
    (hvalid : s.now.cmdValid = false) : step s = .next s.tick := by
  simp [step, cycle, hrst, hst, hvalid]

/-! ### The effect of START (rule R125) -/

theorem State.startRun_of_not_idle {s : State p} (h : s.st ≠ .idle) : s.startRun = s := by
  obtain ⟨-, e⟩ | ⟨hidle, -⟩ | ⟨hidle, -⟩ | ⟨hidle, -⟩ | ⟨hidle, -⟩ := s.startRun_cases
  · exact e
  all_goals exact absurd hidle h

/-- START in IDLE at a root of kind `k` sets ST and CODE to the result of that kind. -/
theorem State.startRun_of_root_kind {s : State p} {k : Kind} (hidle : s.st = .idle) (hk : kind s.root = k) :
    s.startRun.st = (startResult k).1 ∧ s.startRun.code = (startResult k).2 :=
  Prod.mk.inj (hk ▸ (State.startRun_of_idle hidle).2)

end Sys2Proof.Machine

namespace Sys2Proof.Proofs

open Sys2Proof.Machine

/-- Settles O16: one result for each kind of the root, which accepting START does not change. -/
theorem startInIdleDispatchesOnTheRoot : Obligations.StartInIdleDispatchesOnTheRoot := by
  intro s hidle
  have hresult {k : Kind} (hk : kind (s.nodeAt 0#_) = k) :=
    State.startRun_of_root_kind (s := s.accept .start) hidle hk
  obtain ⟨hpos, -⟩ := State.startRun_of_idle (s := s.accept .start) hidle
  exact ⟨(s.accept .start).startRun.tick, exec_eq_next_iff.2 rfl, hpos, hresult, hresult, hresult, hresult,
    by simp, by simp, by simp⟩

/-- Settles O11: the command port is looked at outside RUN only. -/
theorem commandPortIgnoredInRun : Obligations.CommandPortIgnoredInRun := by
  intro s v c hrun
  refine ⟨by simp [State.cmdReady, hrun], ?_⟩
  rw [step_eq s, step_eq_next_iff]
  exact stepNext_withNow rfl (fun hst => absurd hrun hst) (fun _ _ => rfl) (fun _ _ => rfl)

/-- Settles O12: a step that looks at the bit source or at the sink is a walk step at an INT or a LEAF word. -/
theorem streamsIgnoredOutsideIntAndLeaf : Obligations.StreamsIgnoredOutsideIntAndLeaf := by
  intro s v d e r h
  have hkind (hrun : s.st = .run) : ¬ (kind s.fetch = .int ∨ kind s.fetch = .leaf) := by
    obtain hst | hk | hk := h
    · exact absurd hrun hst
    · simp [hk]
    · simp [hk]
  rw [step_eq s, step_eq_next_iff]
  exact stepNext_withNow rfl (fun _ => ⟨rfl, fun _ => rfl⟩) (fun hrun hk => absurd hk (hkind hrun))
    (fun hrun hk => absurd (.inr hk) (hkind hrun))

/-- Settles O8. -/
theorem stepRunsTheOfferedCommand : Obligations.StepRunsTheOfferedCommand := by
  intro s hrst hst
  refine ⟨step_of_command hrst hst, fun hvalid => ?_⟩
  exact ⟨s.tick, step_of_no_command hrst hst hvalid, rfl, rfl, rfl, s.tick_nodeAt, rfl, rfl, rfl⟩

/-- Settles O14: accepting a command adds to the record of transfers only. -/
theorem nopCompletesAndChangesNothing : Obligations.NopCompletesAndChangesNothing := by
  intro s
  exact ⟨(s.accept .nop).tick, exec_eq_next_iff.2 rfl, rfl, rfl, rfl, by simp, by simp, by simp⟩

/-- Settles O15, by the law of reading NODE after a write. -/
theorem loadStoresItsWordAndNothingElse : Obligations.LoadStoresItsWordAndNothingElse := by
  intro a d s
  exact ⟨((s.accept (.load a d)).setNode a d).tick, exec_eq_next_iff.2 rfl, by simp, fun b hb => by simp [hb],
    rfl, rfl, rfl, by simp, by simp⟩

/-- Settles O17: outside IDLE the effect of START is that of accepting a command. -/
theorem startOutsideIdleHasNoEffect : Obligations.StartOutsideIdleHasNoEffect := by
  intro s h
  have hst : (s.accept .start).st ≠ .idle := by
    obtain h | h := h <;> simp [h]
  have hstart : exec .start s = .next (s.accept .start).tick := by
    rw [exec_eq_next_iff, effect, State.startRun_of_not_idle hst]
  exact ⟨(s.accept .start).tick, hstart, rfl, rfl, rfl, by simp, by simp, by simp⟩

/-- Settles O18: the return to IDLE writes the three registers and not NODE. -/
theorem clearReturnsToIdle : Obligations.ClearReturnsToIdle := by
  intro s
  exact ⟨(s.accept .clear).toIdle.tick, exec_eq_next_iff.2 rfl, rfl, rfl, rfl, by simp, by simp, by simp⟩

end Sys2Proof.Proofs
end

section
/-! PROOF. The walk of an INT and of a LEAF node for each thing the source and the sink can show, the walk step as the
effect of the node at POS, and the statements about walk steps (rules R140 to R146). -/

namespace Sys2Proof.Machine

variable {p : Params} {s : State p} {l r : Index p} {v : Symbol p}

/-! ### INT by what the source shows (rule R141) -/

theorem State.walkInt_of_silent (hv : s.now.bitValid = false) (he : s.now.bitEos = false) : s.walkInt l r = s := by
  rw [State.walkInt, PortIn.peek_wait.2 ⟨hv, he⟩]

theorem State.walkInt_of_exhausted (hv : s.now.bitValid = false) (he : s.now.bitEos = true) :
    s.walkInt l r = s.raiseFault .decodeTruncated := by
  rw [State.walkInt, PortIn.peek_eos.2 ⟨hv, he⟩]

theorem State.walkInt_of_bit (hv : s.now.bitValid = true) : s.walkInt l r = s.descend l r s.now.bitData := by
  rw [State.walkInt, PortIn.peek_bit.2 ⟨hv, rfl⟩]

theorem State.walkInt_of_absent_child (hv : s.now.bitValid = true) (hc : childIndex l r s.now.bitData = 0#p.idxW) :
    s.walkInt l r = (s.bitTake s.now.bitData).raiseFault .decodeNoChild := by
  rw [State.walkInt_of_bit hv, State.descend, if_pos hc]

theorem State.walkInt_of_child (hv : s.now.bitValid = true) (hc : childIndex l r s.now.bitData ≠ 0#p.idxW) :
    s.walkInt l r = (s.bitTake s.now.bitData).moveTo (childIndex l r s.now.bitData) := by
  rw [State.walkInt_of_bit hv, State.descend, if_neg hc]

/-! ### LEAF by what the source and the sink show (rule R142) -/

theorem State.walkLeaf_of_silent (hv : s.now.bitValid = false) (he : s.now.bitEos = false) : s.walkLeaf v = s := by
  rw [State.walkLeaf, PortIn.peek_wait.2 ⟨hv, he⟩]

theorem State.walkLeaf_of_busy (hr : s.now.symReady = false) : s.walkLeaf v = s := by
  rw [State.walkLeaf, hr]
  cases s.now.peek <;> rfl

theorem State.walkLeaf_of_bit (hv : s.now.bitValid = true) (hr : s.now.symReady = true) :
    s.walkLeaf v = (s.symPut v).moveTo 0#p.idxW := by
  simp [State.walkLeaf, PortIn.peek_bit.2 ⟨hv, rfl⟩, hr]

theorem State.walkLeaf_of_exhausted (hv : s.now.bitValid = false) (he : s.now.bitEos = true)
    (hr : s.now.symReady = true) : s.walkLeaf v = (s.symPut v).finish .ok := by
  simp [State.walkLeaf, PortIn.peek_eos.2 ⟨hv, he⟩, hr]

/-! ### The walk step (rule R140) -/

/-- A walk step is the effect of the node word at POS, past the clock edge. -/
theorem stepNext_of_run (hrst : s.now.rst = false) (hst : s.st = .run) :
    stepNext s = (effect (decodeNode (s.nodeAt s.pos)) s).tick := by
  simp [stepNext, hrst, hst, State.fetch]

theorem effect_decodeNode_node (w : NodeWord p) (s : State p) : (effect (decodeNode w) s).node = s.node := by
  cases hk : kind w <;> simp [decodeNode, hk, effect]

theorem State.code_of_run (hcodes : s.codeAgrees) (hst : s.st = .run) : s.code = .ok := by
  simpa [State.codeAgrees, hst] using hcodes

/-- Each of the ten kinds of step uses up the inputs of one cycle. -/
theorem stepNext_inputs (s : State p) : (stepNext s).inputs = s.inputs.tail := by
  rcases stepNext_cases s with ⟨-, e⟩ | ⟨-, -, -, e⟩ | ⟨-, -, -, e⟩ | ⟨-, -, -, e⟩ | ⟨-, -, -, e⟩ | ⟨-, -, -, e⟩ |
    ⟨-, -, -, -, e⟩ | ⟨-, -, -, -, e⟩ | ⟨-, -, -, -, e⟩ | ⟨-, -, -, -, e⟩ <;> simp [e]

end Sys2Proof.Machine

namespace Sys2Proof.Proofs

open Sys2Proof.Machine

/-- Settles O19: one law of the walk of INT for each thing the source shows. -/
theorem intDescendsByTheOfferedBit : Obligations.IntDescendsByTheOfferedBit := by
  intro l r s
  refine ⟨(s.walkInt l r).tick, exec_eq_next_iff.2 rfl, by simp, by simp, fun hv he => ?_, fun hv he => ?_,
    fun hv => ⟨?_, fun hc => ?_, fun hc => ?_⟩⟩
  · simp [State.walkInt_of_silent hv he]
  · simp [State.walkInt_of_exhausted hv he]
  · simp [State.walkInt_xfers, transfersOf, hv]
  · simp [State.walkInt_of_absent_child hv hc]
  · simp [State.walkInt_of_child hv hc, childIndex]

/-- Settles O20: one law of the walk of LEAF for each thing the source and the sink show. -/
theorem leafEmitsItsSymbol : Obligations.LeafEmitsItsSymbol := by
  intro v s
  refine ⟨(s.walkLeaf v).tick, exec_eq_next_iff.2 rfl, by simp, by simp, ?_, fun hv hr => ?_, fun hv he hr => ?_⟩
  · rintro (⟨hv, he⟩ | hr)
    · simp [State.walkLeaf_of_silent hv he]
    · simp [State.walkLeaf_of_busy hr]
  · simp [State.walkLeaf_of_bit hv hr]
  · simp [State.walkLeaf_of_exhausted hv he hr]

/-- Settles O24: the rows of the table are split as the table splits them, and each is one law of INT or LEAF, or the
fault of EMPTY or RSVD3. -/
theorem walkStepsFollowTheTransitionTable : Obligations.WalkStepsFollowTheTransitionTable := by
  intro s hrst hst hcodes
  have hcode : s.code = .ok := State.code_of_run hcodes hst
  refine ⟨_, step_eq s, ?_⟩
  rw [stepNext_of_run hrst hst]
  refine ⟨effect_decodeNode_node _ s, ?_⟩
  cases hk : kind (s.nodeAt s.pos) <;> simp only [decodeNode, hk, effect]
  case empty | rsvd3 => simp
  case int =>
    cases hv : s.now.bitValid with
    | true =>
      refine ⟨by simp [State.walkInt_xfers, transfersOf, hv], ?_⟩
      by_cases hc : childIndex (left (s.nodeAt s.pos)) (right (s.nodeAt s.pos)) s.now.bitData = 0#_
      · exact (if_pos hc).mpr (by simp [State.walkInt_of_absent_child hv hc])
      · exact (if_neg hc).mpr (by simp [State.walkInt_of_child hv hc, childIndex, hst, hcode])
    | false =>
      cases he : s.now.bitEos
      · simp [State.walkInt_of_silent hv he, hst, hcode]
      · simp [State.walkInt_of_exhausted hv he]
  case leaf =>
    cases hr : s.now.symReady with
    | false => cases s.now.bitValid <;> cases s.now.bitEos <;> simp [State.walkLeaf_of_busy hr, hst, hcode]
    | true =>
      cases hv : s.now.bitValid with
      | true => simp [State.walkLeaf_of_bit hv hr, hst, hcode]
      | false =>
        cases he : s.now.bitEos
        · simp [State.walkLeaf_of_silent hv he, hst, hcode]
        · simp [State.walkLeaf_of_exhausted hv he hr]

/-- Settles O33: every case of a walk step but the stall leaves ST = RUN or records a transfer. -/
theorem walkStepStallsExactlyAsListed : Obligations.WalkStepStallsExactlyAsListed := by
  intro s t hrst hst hstep
  obtain rfl := step_eq_next_iff.1 hstep
  refine ⟨fun hstall => ?_, fun hgo => ?_⟩
  · simp [stepNext_of_stalls hrst hst hstall]
  · rcases walkStep_cases hrst hst with ⟨hstall, -⟩ | ⟨-, -, e⟩ | ⟨-, -, e⟩ | ⟨-, -, -, e⟩ | ⟨b, -, -, -, -, e⟩ |
      ⟨b, -, -, -, -, e⟩ | ⟨b, -, -, -, e⟩ | ⟨-, -, -, e⟩
    · simp [hstall] at hgo
    all_goals simp [e, hst]

/-- Settles O7: both sides are the effect of the node word at POS, past the clock edge. -/
theorem stepRunsTheNodeAtPos : Obligations.StepRunsTheNodeAtPos := by
  intro s hrst hst
  rw [step_eq, stepNext_of_run hrst hst, exec_eq_execAt, execAt_eq]

/-- Settles O10, at any parameters and then at the default ones. -/
theorem everyStepIsDefined : Obligations.EveryStepIsDefined :=
  ⟨fun _ s => ⟨stepNext s, stepAt_eq s, stepNext_inputs s⟩, step_eq_stepAt⟩

/-- Settles O21: the effect of EMPTY is a fault entry alone. -/
theorem emptyFaultsWithNoChild : Obligations.EmptyFaultsWithNoChild := by
  intro s
  exact ⟨(s.raiseFault .decodeNoChild).tick, exec_eq_next_iff.2 rfl, rfl, rfl, rfl, by simp, by simp, by simp⟩

/-- Settles O22: the effect of RSVD3 is a fault entry alone. -/
theorem reservedNodeFaultsWithBadNode : Obligations.ReservedNodeFaultsWithBadNode := by
  intro s
  exact ⟨(s.raiseFault .badNode).tick, exec_eq_next_iff.2 rfl, rfl, rfl, rfl, by simp, by simp, by simp⟩

end Sys2Proof.Proofs
end

section
/-! PROOF. `Decode` as a transition system between cursors (POS, S, i), and the statements about `Decode` on every node
memory. -/

namespace Sys2Proof.Machine

variable {p : Params}

/-! ### Decode as a transition system (rule R174) -/

/-- Where the loop of `Decode` stands between two passes: POS, S and i. -/
structure Cursor (p : Params) where
  pos : Index p
  syms : List (Symbol p)
  taken : Nat

/-- Where the loop begins. -/
def Cursor.start : Cursor p := ⟨0#p.idxW, [], 0⟩

section
variable (N : Index p → NodeWord p) (B : List Bool)

/-- A pass after which the loop goes on: a leaf with bits left, or a bit that selects a child. -/
inductive Goes (c : Cursor p) : Cursor p → Prop where
  | emit (hk : kind (N c.pos) = .leaf) (hi : c.taken ≠ B.length) :
    Goes c ⟨0#p.idxW, c.syms ++ [sym (N c.pos)], c.taken⟩
  | descend {b : Bool} (hk : kind (N c.pos) = .int) (hb : B[c.taken]? = some b)
    (hc : childIndex (left (N c.pos)) (right (N c.pos)) b ≠ 0#p.idxW) :
    Goes c ⟨childIndex (left (N c.pos)) (right (N c.pos)) b, c.syms, c.taken + 1⟩

/-- A pass in which the loop returns. -/
inductive Ends (c : Cursor p) : Result p → Prop where
  | empty (hk : kind (N c.pos) = .empty) : Ends c ⟨c.syms, c.taken, .fault, .decodeNoChild, c.pos⟩
  | rsvd3 (hk : kind (N c.pos) = .rsvd3) : Ends c ⟨c.syms, c.taken, .fault, .badNode, c.pos⟩
  | leaf (hk : kind (N c.pos) = .leaf) (hi : c.taken = B.length) :
    Ends c ⟨c.syms ++ [sym (N c.pos)], c.taken, .done, .ok, c.pos⟩
  | truncated (hk : kind (N c.pos) = .int) (hb : B[c.taken]? = none) :
    Ends c ⟨c.syms, c.taken, .fault, .decodeTruncated, c.pos⟩
  | noChild {b : Bool} (hk : kind (N c.pos) = .int) (hb : B[c.taken]? = some b)
    (hc : childIndex (left (N c.pos)) (right (N c.pos)) b = 0#p.idxW) :
    Ends c ⟨c.syms, c.taken + 1, .fault, .decodeNoChild, c.pos⟩

/-- Some passes lead from one cursor to another. -/
abbrev Reaches : Cursor p → Cursor p → Prop := Relation.ReflTransGen (Goes N B)

/-- The loop, begun at `c`, returns `r`. -/
def Decodes (c : Cursor p) (r : Result p) : Prop := ∃ d, Reaches N B c d ∧ Ends N B d r

/-- At most so many passes are left, the last one included: two for each bit that is left, and below the root one
more for the leaf under way. -/
def Cursor.passesLeft (c : Cursor p) : Nat := 2 * (B.length - c.taken) + if c.pos = 0#p.idxW then 1 else 2

end

section
variable {N : Index p → NodeWord p} {B : List Bool} {c d : Cursor p} {r : Result p}

/-- Every pass returns or goes on. -/
theorem ends_or_goes (c : Cursor p) : (∃ r, Ends N B c r) ∨ ∃ d, Goes N B c d := by
  cases hk : kind (N c.pos) with
  | empty => exact .inl ⟨_, .empty hk⟩
  | rsvd3 => exact .inl ⟨_, .rsvd3 hk⟩
  | leaf =>
    by_cases hi : c.taken = B.length
    · exact .inl ⟨_, .leaf hk hi⟩
    · exact .inr ⟨_, .emit hk hi⟩
  | int =>
    cases hb : B[c.taken]? with
    | none => exact .inl ⟨_, .truncated hk hb⟩
    | some b =>
      by_cases hc : childIndex (left (N c.pos)) (right (N c.pos)) b = 0#p.idxW
      · exact .inl ⟨_, .noChild hk hb hc⟩
      · exact .inr ⟨_, .descend hk hb hc⟩

theorem Ends.decodeLoop_eq (h : Ends N B c r) (fuel : Nat) :
    decodeLoop N B (fuel + 1) c.pos c.syms c.taken = some r := by
  cases h <;> simp [decodeLoop, *]

theorem Goes.decodeLoop_eq (h : Goes N B c d) (fuel : Nat) :
    decodeLoop N B (fuel + 1) c.pos c.syms c.taken = decodeLoop N B fuel d.pos d.syms d.taken := by
  cases h <;> simp [decodeLoop, *]

theorem Cursor.one_le_passesLeft (c : Cursor p) : 1 ≤ c.passesLeft B := by
  unfold Cursor.passesLeft; split <;> omega

@[simp] theorem Cursor.passesLeft_start : (Cursor.start : Cursor p).passesLeft B = 2 * B.length + 1 := by
  simp [Cursor.passesLeft, Cursor.start]

/-- A pass that goes on leaves fewer passes; the leaf it visits is below the INT root. -/
theorem Goes.passesLeft_lt (h : Goes N B c d) (hroot : kind (N 0#p.idxW) = .int) :
    d.passesLeft B < c.passesLeft B := by
  cases h with
  | emit hk hi =>
    have hpos : c.pos ≠ 0#p.idxW := fun e => by simp [e, hroot] at hk
    simp [Cursor.passesLeft, hpos]
  | descend hk hb hc =>
    have hlt : c.taken < B.length := (List.getElem?_eq_some_iff.1 hb).1
    simp only [Cursor.passesLeft, hc, if_false]
    split <;> omega

/-- From every cursor the loop returns, since the passes left decrease. -/
theorem exists_decodes (hroot : kind (N 0#p.idxW) = .int) (c : Cursor p) : ∃ r, Decodes N B c r := by
  induction hm : c.passesLeft B using Nat.strong_induction_on generalizing c with
  | _ m ih =>
    subst hm
    rcases ends_or_goes c with ⟨r, hr⟩ | ⟨d, hd⟩
    · exact ⟨r, c, .refl, hr⟩
    · obtain ⟨r, e, hde, hr⟩ := ih _ (hd.passesLeft_lt hroot) d rfl
      exact ⟨r, e, .head hd hde, hr⟩

/-- With fuel for the passes left the loop computes what it returns. -/
theorem Decodes.decodeLoop_eq (h : Decodes N B c r) (hroot : kind (N 0#p.idxW) = .int) {fuel : Nat}
    (hfuel : c.passesLeft B ≤ fuel) : decodeLoop N B fuel c.pos c.syms c.taken = some r := by
  obtain ⟨e, hce, hr⟩ := h
  induction hce using Relation.ReflTransGen.head_induction_on generalizing fuel with
  | refl =>
    have := e.one_le_passesLeft (B := B)
    obtain ⟨fuel, rfl⟩ := Nat.exists_eq_add_one_of_ne_zero (show fuel ≠ 0 by omega)
    exact hr.decodeLoop_eq fuel
  | head hcd _ ih =>
    have := hcd.passesLeft_lt hroot
    obtain ⟨fuel, rfl⟩ := Nat.exists_eq_add_one_of_ne_zero (show fuel ≠ 0 by omega)
    rw [hcd.decodeLoop_eq]
    exact ih (by omega)

/-- On an INT root `Decode` is what the loop returns from its start; rule R175's fuel is enough. -/
theorem Decodes.runDecode_eq (h : Decodes N B .start r) (hroot : kind (N 0#p.idxW) = .int) :
    runDecode N B = some r := by
  rw [runDecode, hroot]
  exact h.decodeLoop_eq hroot (by simp)

/-- `Decode` and the transition system agree on an INT root. -/
theorem runDecode_eq_some_iff (hroot : kind (N 0#p.idxW) = .int) :
    runDecode N B = some r ↔ Decodes N B .start r := by
  refine ⟨fun h => ?_, fun h => h.runDecode_eq hroot⟩
  obtain ⟨r', hr'⟩ := exists_decodes (B := B) hroot .start
  obtain rfl : r' = r := Option.some.inj ((hr'.runDecode_eq hroot).symm.trans h)
  exact hr'

/-- START's own result on a root that is not INT (rule R125): no symbol, no bit. -/
theorem runDecode_of_root_ne_int (hroot : kind (N 0#p.idxW) ≠ .int) :
    runDecode N B =
      some ⟨[], 0, (startResult (kind (N 0#p.idxW))).1, (startResult (kind (N 0#p.idxW))).2, 0#p.idxW⟩ := by
  rw [runDecode]
  cases hk : kind (N 0#p.idxW) with
  | int => exact absurd hk hroot
  | empty | leaf | rsvd3 => rfl

/-- A pass that goes on consumes only bits there are. -/
theorem Reaches.taken_le (h : Reaches N B c d) (hc : c.taken ≤ B.length) : d.taken ≤ B.length := by
  induction h with
  | refl => exact hc
  | tail _ hgo ih =>
    cases hgo with
    | emit => exact ih
    | descend _ hb => exact (List.getElem?_eq_some_iff.1 hb).1

end

end Sys2Proof.Machine

namespace Sys2Proof.Proofs

open Sys2Proof.Machine

/-- Settles O39: each pass that goes on leaves fewer passes, at most `2 * n + 1` at the start. -/
theorem decodeAlwaysReturns : Obligations.DecodeAlwaysReturns := by
  intro p N B
  by_cases hroot : kind (N 0#p.idxW) = .int
  · obtain ⟨r, hr⟩ := exists_decodes (B := B) hroot .start
    exact ⟨r, hr.runDecode_eq hroot⟩
  · exact ⟨_, runDecode_of_root_ne_int hroot⟩

/-- Settles O40: no pass consumes a bit that is not there, and each way to return shows what is left. -/
theorem bitsLeftInTheSource : Obligations.BitsLeftInTheSource := by
  intro p N B r h
  by_cases hroot : kind (N 0#p.idxW) = .int
  · obtain ⟨d, hd, hr⟩ := (runDecode_eq_some_iff hroot).1 h
    have htaken : d.taken ≤ B.length := hd.taken_le (Nat.zero_le _)
    cases hr with
    | empty | rsvd3 => exact ⟨htaken, by simp, by simp [hroot]⟩
    | leaf hk hi => exact ⟨htaken, fun _ => hi, by simp [hroot]⟩
    | truncated hk hb => exact ⟨htaken, fun _ => htaken.antisymm (List.getElem?_eq_none_iff.1 hb), by simp [hroot]⟩
    | noChild hk hb => exact ⟨(List.getElem?_eq_some_iff.1 hb).1, by simp, by simp [hroot]⟩
  · obtain rfl := Option.some.inj ((runDecode_of_root_ne_int hroot).symm.trans h)
    refine ⟨Nat.zero_le _, fun hcode => ?_, fun _ => ⟨rfl, rfl⟩⟩
    cases hk : kind (N 0#p.idxW) <;> simp [hk, startResult] at hroot hcode

end Sys2Proof.Proofs
end

section
/-! PROOF. `Decode` on proper trees and on node memories of the same shape, and the statements about them. -/

namespace Sys2Proof.Machine

variable {p : Params}

section
variable {N : Index p → NodeWord p} {B : List Bool} {c d : Cursor p} {r : Result p} {x y : Index p}

/-! ### What the words of a proper tree are (rule R178) -/

/-- The word at `x` is reachable from the root. -/
def Reachable (N : Index p → NodeWord p) (x : Index p) : Prop := ∃ bs, follow N 0#p.idxW bs = some x

theorem reachable_root (N : Index p → NodeWord p) : Reachable N 0#p.idxW := ⟨[], rfl⟩

theorem ProperTree.kind_of_reachable (h : ProperTree N) (hx : Reachable N x) :
    kind (N x) = .leaf ∨ kind (N x) = .int := by
  obtain ⟨bs, hbs⟩ := hx
  exact (h.nodes bs x hbs).imp id And.left

/-- In a proper tree a reachable INT word has a child for each bit. -/
theorem ProperTree.child_ne_zero (h : ProperTree N) (hx : Reachable N x) (hk : kind (N x) = .int) (b : Bool) :
    childIndex (left (N x)) (right (N x)) b ≠ 0#p.idxW := by
  obtain ⟨bs, hbs⟩ := hx
  obtain hleaf | ⟨-, hl, hr⟩ := h.nodes bs x hbs
  · simp [hk] at hleaf
  · cases b
    · exact hl
    · exact hr

theorem Reachable.child (hx : Reachable N x) (hk : kind (N x) = .int) {b : Bool}
    (hc : childIndex (left (N x)) (right (N x)) b ≠ 0#p.idxW) :
    Reachable N (childIndex (left (N x)) (right (N x)) b) := by
  obtain ⟨bs, hbs⟩ := hx
  exact ⟨bs ++ [b], follow_concat.2 ⟨x, hbs, hk, rfl, hc⟩⟩

/-- The loop of `Decode` stays on reachable words, in any node memory. -/
theorem Reaches.reachable (h : Reaches N B c d) (hc : Reachable N c.pos) : Reachable N d.pos := by
  induction h with
  | refl => exact hc
  | tail _ hgo ih =>
    cases hgo with
    | emit => exact reachable_root N
    | descend hk _ hchild => exact ih.child hk hchild

/-! ### Every branch of a proper tree ends in a leaf (rule R178) -/

/-- Along an endless sequence of bits that meets no leaf, each of its beginnings leads to some word. -/
theorem ProperTree.follow_of_no_leaf (h : ProperTree N) {g : Nat → Bool}
    (hno : ∀ n x, ¬ IsLeafPath N ((List.range n).map g) x) (n : Nat) :
    ∃ x, follow N 0#p.idxW ((List.range n).map g) = some x := by
  induction n with
  | zero => exact ⟨_, rfl⟩
  | succ n ih =>
    obtain ⟨x, hx⟩ := ih
    have hk : kind (N x) = .int := (h.kind_of_reachable ⟨_, hx⟩).resolve_left fun hleaf => hno n x ⟨hx, hleaf⟩
    exact ⟨_, by
      rw [List.range_succ, List.map_append]
      exact follow_concat.2 ⟨x, hx, hk, rfl, h.child_ne_zero ⟨_, hx⟩ hk (g n)⟩⟩

/-- Every endless sequence of bits begins with the path of a leaf: the words on its way are all different, and there
are finitely many. -/
theorem ProperTree.exists_leafPath (h : ProperTree N) (g : Nat → Bool) :
    ∃ n x, IsLeafPath N ((List.range n).map g) x := by
  by_contra! hno
  choose at_ hat using h.follow_of_no_leaf hno
  refine not_injective_infinite_finite at_ fun m n hmn => ?_
  have heq : (List.range m).map g = (List.range n).map g := h.unique _ _ _ (hat m) (hmn ▸ hat n)
  simpa using congrArg List.length heq

/-! ### Decoding along the path of a leaf (rule R179) -/

/-- The loop follows the bits of a path that are next. -/
theorem reaches_of_follow {bs rest : List Bool} {S : List (Symbol p)} {i : Nat} (hB : B.drop i = bs ++ rest)
    (h : follow N x bs = some y) : Reaches N B ⟨x, S, i⟩ ⟨y, S, i + bs.length⟩ := by
  induction bs using List.reverseRecOn generalizing rest y with
  | nil => obtain rfl := Option.some.inj h; exact .refl
  | append_singleton bs b ih =>
    obtain ⟨z, hz, hk, rfl, hc⟩ := follow_concat.1 h
    have hb : B[i + bs.length]? = some b := by rw [← List.getElem?_drop, hB]; simp
    rw [List.append_assoc] at hB
    simpa [Nat.add_assoc] using (ih hB hz).tail (.descend hk hb hc)

theorem Decodes.of_reaches (h : Decodes N B d r) (hcd : Reaches N B c d) : Decodes N B c r :=
  let ⟨e, hde, he⟩ := h
  ⟨e, hcd.trans hde, he⟩

/-- The root of a proper tree is no leaf. -/
theorem ProperTree.leafPath_length_pos (h : ProperTree N) {bs : List Bool} (hbs : IsLeafPath N bs x) :
    0 < bs.length := by
  obtain ⟨hx, hk⟩ := hbs
  refine List.length_pos_iff.2 fun hnil => ?_
  subst hnil
  obtain rfl := Option.some.inj hx
  simp [h.root] at hk

/-- From the root with the concatenated paths of some leaves left, the loop emits their symbols and ends normally at
the last one. -/
theorem ProperTree.decodes_leaves (h : ProperTree N) (first : List Bool × Index p)
    (rest : List (List Bool × Index p)) (hleaf : ∀ e ∈ first :: rest, IsLeafPath N e.1 e.2) (S : List (Symbol p))
    (i : Nat) (hB : B.drop i = (first :: rest).flatMap Prod.fst) :
    Decodes N B ⟨0#p.idxW, S, i⟩
      ⟨S ++ (first :: rest).map fun e => sym (N e.2), B.length, .done, .ok, (rest.getLastD first).2⟩ := by
  induction rest generalizing first S i with
  | nil =>
    have hfirst : IsLeafPath N first.1 first.2 := hleaf first (by simp)
    have hpos := h.leafPath_length_pos hfirst
    have hlength : B.length - i = first.1.length := by simpa using congrArg List.length hB
    have hi : i + first.1.length = B.length := by omega
    rw [← hi]
    exact ⟨_, reaches_of_follow hB hfirst.1, .leaf hfirst.2 hi⟩
  | cons e rest ih =>
    have hfirst : IsLeafPath N first.1 first.2 := hleaf first (by simp)
    have hpos := h.leafPath_length_pos (hleaf e (by simp))
    rw [List.flatMap_cons] at hB
    have hrest : B.drop (i + first.1.length) = (e :: rest).flatMap Prod.fst := by
      rw [← List.drop_drop, hB, List.drop_left]
    have hi : i + first.1.length ≠ B.length := fun hi => by
      rw [hi, List.drop_length, List.flatMap_cons] at hrest
      simp [(List.append_eq_nil_iff.1 hrest.symm).1] at hpos
    have hdec := ih e (fun e' he' => hleaf e' (by simp [he'])) (S ++ [sym (N first.2)]) _ hrest
    simpa only [List.append_assoc, List.map_cons, List.singleton_append, List.getLastD_cons]
      using (hdec.of_reaches (.single (.emit hfirst.2 hi))).of_reaches (reaches_of_follow hB hfirst.1)

end

/-! ### Two node memories of the same shape (rule R177) -/

section
variable {N N' : Index p → NodeWord p} {R : Index p → Index p → Prop} {B : List Bool}
  {c c' d : Cursor p} {r : Result p}

/-- `R` relates the roots, and nodes of the same kind and symbol with the same absent children; it goes on to the
children that are not absent. -/
structure SameShape (N N' : Index p → NodeWord p) (R : Index p → Index p → Prop) : Prop where
  root : R 0#p.idxW 0#p.idxW
  kind_eq {x y} : R x y → kind (N x) = kind (N' y)
  sym_eq {x y} : R x y → kind (N x) = .leaf → sym (N x) = sym (N' y)
  absent_iff {x y} : R x y → kind (N x) = .int → ∀ b,
    (childIndex (left (N x)) (right (N x)) b = 0#p.idxW ↔ childIndex (left (N' y)) (right (N' y)) b = 0#p.idxW)
  child {x y} : R x y → kind (N x) = .int → ∀ b, childIndex (left (N x)) (right (N x)) b ≠ 0#p.idxW →
    R (childIndex (left (N x)) (right (N x)) b) (childIndex (left (N' y)) (right (N' y)) b)

/-- Two cursors that differ in POS only, which `R` relates. -/
structure Alike (R : Index p → Index p → Prop) (c c' : Cursor p) : Prop where
  pos : R c.pos c'.pos
  syms : c.syms = c'.syms
  taken : c.taken = c'.taken

/-- Two results that agree in all but POS. -/
structure Agrees (r r' : Result p) : Prop where
  syms : r.syms = r'.syms
  taken : r.taken = r'.taken
  st : r.st = r'.st
  code : r.code = r'.code

theorem SameShape.goes (h : SameShape N N' R) (ha : Alike R c c') (hgo : Goes N B c d) :
    ∃ d', Goes N' B c' d' ∧ Alike R d d' := by
  obtain ⟨hpos, hsyms, htaken⟩ := ha
  have hkind := h.kind_eq hpos
  cases hgo with
  | emit hk hi =>
    exact ⟨_, .emit (hkind ▸ hk) (htaken ▸ hi), h.root, by rw [hsyms, h.sym_eq hpos hk], htaken⟩
  | descend hk hb hc =>
    exact ⟨_, .descend (hkind ▸ hk) (htaken ▸ hb) (mt (h.absent_iff hpos hk _).2 hc), h.child hpos hk _ hc, hsyms,
      by rw [htaken]⟩

theorem SameShape.ends (h : SameShape N N' R) (ha : Alike R c c') (hend : Ends N B c r) :
    ∃ r', Ends N' B c' r' ∧ Agrees r r' := by
  obtain ⟨hpos, hsyms, htaken⟩ := ha
  have hkind := h.kind_eq hpos
  cases hend with
  | empty hk => exact ⟨_, .empty (hkind ▸ hk), hsyms, htaken, rfl, rfl⟩
  | rsvd3 hk => exact ⟨_, .rsvd3 (hkind ▸ hk), hsyms, htaken, rfl, rfl⟩
  | leaf hk hi => exact ⟨_, .leaf (hkind ▸ hk) (htaken ▸ hi), by rw [hsyms, h.sym_eq hpos hk], htaken, rfl, rfl⟩
  | truncated hk hb => exact ⟨_, .truncated (hkind ▸ hk) (htaken ▸ hb), hsyms, htaken, rfl, rfl⟩
  | noChild hk hb hc =>
    have hc' := (h.absent_iff hpos hk _).1 hc
    exact ⟨_, .noChild (hkind ▸ hk) (htaken ▸ hb) hc', hsyms, by rw [htaken], rfl, rfl⟩

/-- The loop goes through two memories of the same shape in lockstep. -/
theorem SameShape.decodes (h : SameShape N N' R) (ha : Alike R c c') (hdec : Decodes N B c r) :
    ∃ r', Decodes N' B c' r' ∧ Agrees r r' := by
  obtain ⟨d, hcd, hr⟩ := hdec
  induction hcd using Relation.ReflTransGen.head_induction_on generalizing c' with
  | refl =>
    obtain ⟨r', hr', hagree⟩ := h.ends ha hr
    exact ⟨r', ⟨c', .refl, hr'⟩, hagree⟩
  | head hgo _ ih =>
    obtain ⟨d', hgo', ha'⟩ := h.goes ha hgo
    obtain ⟨r', hdec', hagree⟩ := ih ha'
    exact ⟨r', hdec'.of_reaches (.single hgo'), hagree⟩

/-- `Decode` agrees on two memories of the same shape, whatever the kind of their roots. -/
theorem SameShape.runDecode (h : SameShape N N' R) (hr : runDecode N B = some r) :
    ∃ r', runDecode N' B = some r' ∧ Agrees r r' := by
  have hkind := h.kind_eq h.root
  by_cases hroot : kind (N 0#p.idxW) = .int
  · have hdec := (runDecode_eq_some_iff hroot).1 hr
    obtain ⟨r', hdec', hagree⟩ := h.decodes (c' := .start) ⟨h.root, rfl, rfl⟩ hdec
    exact ⟨r', hdec'.runDecode_eq (hkind ▸ hroot), hagree⟩
  · rw [runDecode_of_root_ne_int hroot] at hr
    obtain rfl := Option.some.inj hr
    exact ⟨_, runDecode_of_root_ne_int (hkind ▸ hroot), rfl, rfl, by rw [hkind], by rw [hkind]⟩

end

end Sys2Proof.Machine

namespace Sys2Proof.Proofs

open Sys2Proof.Machine

/-- Settles O45: the loop stands on reachable words only, which are leaves or INT words with both children. -/
theorem properTreeFaultsOnlyByTruncation : Obligations.ProperTreeFaultsOnlyByTruncation := by
  intro p N B r htree h
  obtain ⟨d, hd, hr⟩ := (runDecode_eq_some_iff htree.root).1 h
  have hreach : Reachable N d.pos := hd.reachable (reachable_root N)
  cases hr with
  | empty hk | rsvd3 hk => simpa [hk] using htree.kind_of_reachable hreach
  | leaf => exact .inl ⟨rfl, rfl⟩
  | truncated => exact .inr ⟨rfl, rfl⟩
  | noChild hk hb hc => exact absurd hc (htree.child_ne_zero hreach hk _)

/-- Settles O46: the branch that goes on with 0 for ever after `B` ends in a leaf, and no later than `B` does. -/
theorem properTreeReachesALeafWithinItsHeight : Obligations.ProperTreeReachesALeafWithinItsHeight := by
  intro p N h htree hheight B hB
  obtain ⟨n, x, hx⟩ := htree.exists_leafPath fun i => B.getD i false
  have hn : n ≤ h := by simpa using hheight _ x hx
  refine ⟨n, x, hn, ?_⟩
  convert hx using 1
  refine List.ext_getElem (by simp; omega) fun i hi _ => ?_
  have : i < B.length := (List.length_take_le' n B).trans_lt' hi
  simp [this]

/-- Settles O47: the leaves one after another, and at the root with no bit the first pass is truncated. -/
theorem validEncodingDecodes : Obligations.ValidEncodingDecodes := by
  intro p N htree
  refine ⟨fun first rest hleaf => ?_, ?_⟩
  · exact (htree.decodes_leaves first rest hleaf [] 0 rfl).runDecode_eq htree.root
  · exact Decodes.runDecode_eq ⟨.start, .refl, .truncated htree.root rfl⟩ htree.root

/-- Settles O48: `Decode` of the second memory returns a result that agrees with the first one's. -/
theorem sameShapeGivesSameResult : Obligations.SameShapeGivesSameResult := by
  intro p N N' R hroot hR B r r' hr hr'
  have hshape : SameShape N N' R :=
    ⟨hroot, fun h => (hR _ _ h).1, fun h => (hR _ _ h).2.1, fun h hk b => ((hR _ _ h).2.2 hk b).1,
      fun h hk b => ((hR _ _ h).2.2 hk b).2⟩
  obtain ⟨r'', hr'', hsyms, htaken, hst, hcode⟩ := hshape.runDecode hr
  obtain rfl := Option.some.inj (hr''.symm.trans hr')
  exact ⟨hsyms, htaken, hst, hcode⟩

end Sys2Proof.Proofs
end

section
/-! PROOF. A run of the block follows the passes of `Decode`, one for each walk step that does not stall; what follows
for the results of runs and for the number of their steps. -/

namespace Sys2Proof.Machine

variable {p : Params}

/-! ### The cursor of a run -/

/-- Where a run that began at `s` stands at `u`, as `Decode` counts: POS, the symbols emitted, the bits consumed. -/
def cursorOf (s u : State p) : Cursor p :=
  ⟨u.pos, symsOf (xfersSince s u), (bitsOf (xfersSince s u)).length⟩

section
variable {s u : State p}

@[simp] theorem cursorOf_withNow (x : PortIn p) : cursorOf s (u.withNow x) = cursorOf s u := rfl

@[simp] theorem cursorOf_tick : cursorOf s u.tick = cursorOf s u := rfl

theorem xfersSince_append {t : State p} {l : List (Transfer p)} (hsu : s.xfers <+: u.xfers)
    (ht : t.xfers = u.xfers ++ l) : xfersSince s t = xfersSince s u ++ l := by
  rw [xfersSince, ht, List.drop_append_of_le_length hsu.length_le, xfersSince]

@[simp] theorem cursorOf_moveTo (x : Index p) : cursorOf s (u.moveTo x) = { cursorOf s u with pos := x } := rfl

@[simp] theorem cursorOf_raiseFault (k : Code) : cursorOf s (u.raiseFault k) = cursorOf s u := rfl

@[simp] theorem cursorOf_finish (k : Code) : cursorOf s (u.finish k) = cursorOf s u := rfl

theorem cursorOf_bitTake (hsu : s.xfers <+: u.xfers) (b : Bool) :
    cursorOf s (u.bitTake b) = { cursorOf s u with taken := (cursorOf s u).taken + 1 } := by
  simp [cursorOf, xfersSince_append hsu (u.bitTake_xfers b), symsOf, bitsOf]

theorem cursorOf_symPut (hsu : s.xfers <+: u.xfers) (v : Symbol p) :
    cursorOf s (u.symPut v) = { cursorOf s u with syms := (cursorOf s u).syms ++ [v] } := by
  simp [cursorOf, xfersSince_append hsu (u.symPut_xfers v), symsOf, bitsOf]

/-- The result of a run is its cursor with the registers it ends with. -/
theorem resultOf_eq : resultOf s u = ⟨(cursorOf s u).syms, (cursorOf s u).taken, u.st, u.code, u.pos⟩ := rfl

theorem stepNext_xfers_prefix (s : State p) : s.xfers <+: (stepNext s).xfers := by
  rw [stepNext_xfers, List.append_assoc, List.append_assoc]
  exact List.prefix_append _ _

end

/-! ### A walk step is a pass (rules R141 to R145, R174) -/

section
variable {s u : State p} {B : List Bool}

theorem truthful_bit {i : Nat} {b : Bool} (h : Peek.truthful (B.drop i) (.bit b) = true) : B[i]? = some b := by
  simpa [Peek.truthful] using h

theorem truthful_eos {i : Nat} (h : Peek.truthful (B.drop i) .eos = true) : B.length ≤ i := by
  simpa [Peek.truthful] using h

/-- A walk step, of a run whose source is truthful, that does not stall is a pass of the loop: one that goes on if ST
stays RUN, and otherwise one that returns the result of the run. -/
theorem walkStep_pass (hrst : u.now.rst = false) (hst : u.st = .run) (hsu : s.xfers <+: u.xfers)
    (hB : (cursorOf s u).taken ≤ B.length) (htrue : u.now.peek.truthful (heldBits B s u) = true) :
    (u.stalls = true ∧ stepNext u = u.tick) ∨
    (u.stalls = false ∧ (stepNext u).st = .run ∧ Goes u.nodeAt B (cursorOf s u) (cursorOf s (stepNext u))) ∨
    (u.stalls = false ∧ (stepNext u).isOver = true ∧
      Ends u.nodeAt B (cursorOf s u) (resultOf s (stepNext u))) := by
  have hbit {b : Bool} (hp : u.now.peek = .bit b) : B[(cursorOf s u).taken]? = some b := truthful_bit (hp ▸ htrue)
  have heos (hp : u.now.peek = .eos) : B.length ≤ (cursorOf s u).taken := truthful_eos (hp ▸ htrue)
  rcases walkStep_cases hrst hst with ⟨hs, e⟩ | ⟨hs, hk, e⟩ | ⟨hs, hk, e⟩ | ⟨hs, hk, hp, e⟩ | ⟨b, hs, hk, hp, hc, e⟩ |
    ⟨b, hs, hk, hp, hc, e⟩ | ⟨b, hs, hk, hp, e⟩ | ⟨hs, hk, hp, e⟩
  · exact .inl ⟨hs, e⟩
  all_goals
    refine .inr ?_
    simp only [e, resultOf_eq, cursorOf_tick, cursorOf_raiseFault, cursorOf_moveTo, cursorOf_finish,
      cursorOf_bitTake hsu, cursorOf_symPut hsu]
  · exact .inr ⟨hs, rfl, .empty hk⟩
  · exact .inr ⟨hs, rfl, .rsvd3 hk⟩
  · exact .inr ⟨hs, rfl, .truncated hk (List.getElem?_eq_none_iff.2 (heos hp))⟩
  · exact .inr ⟨hs, rfl, .noChild hk (hbit hp) hc⟩
  · exact .inl ⟨hs, hst, .descend hk (hbit hp) hc⟩
  · exact .inl ⟨hs, hst, .emit hk (List.getElem?_eq_some_iff.1 (hbit hp)).1.ne⟩
  · exact .inr ⟨hs, rfl, .leaf hk (hB.antisymm (heos hp))⟩

end

/-! ### The first step of a run, and NODE through it (rules R125, R69) -/

section
variable {f : Nat → PortIn p} {s u : State p} {B : List Bool} {k : Nat}

/-- The run that begins at `s` with the ports driven by `f` is in progress up to cycle `k`: in cycle 0 START is
offered, and in each of the `k` cycles after it ST is RUN. -/
structure Walks (f : Nat → PortIn p) (s : State p) (k : Nat) : Prop where
  start : (s.withNow (f 0)).offersStart = true
  run : ∀ j, 0 < j → j ≤ k → (driven f s j).st = .run

theorem State.offersStart_iff : s.offersStart = true ↔
    s.st = .idle ∧ s.now.rst = false ∧ s.now.cmdValid = true ∧ op s.now.cmdWord = .start := by
  simp [State.offersStart, and_assoc]

theorem stepNext_of_offersStart (h : s.offersStart = true) : stepNext s = (s.accept .start).startRun.tick := by
  obtain ⟨hidle, hrst, hvalid, hop⟩ := State.offersStart_iff.1 h
  simp [stepNext, hrst, hidle, hvalid, decodeCommand, hop, effect]

theorem walks_zero (h : (s.withNow (f 0)).offersStart = true) : Walks f s 0 :=
  ⟨h, fun _ h0 hj => absurd h0 hj.not_gt⟩

theorem Walks.mono {j : Nat} (h : Walks f s k) (hj : j ≤ k) : Walks f s j :=
  ⟨h.start, fun i h0 hi => h.run i h0 (hi.trans hj)⟩

theorem Walks.succ (h : Walks f s k) (hst : (driven f s (k + 1)).st = .run) : Walks f s (k + 1) :=
  ⟨h.start, fun j h0 hj => (Nat.le_succ_iff.1 hj).elim (h.run j h0) fun e => e ▸ hst⟩

theorem Walks.inRun (h : Walks f s k) {j : Nat} (h0 : 0 < j) (hj : j ≤ k) : InRun f s j (driven f s j) :=
  inRun_iff.2 ⟨h0, rfl, fun i hi hij => h.run i hi (hij.trans hj)⟩

theorem driven_xfers_prefix (f : Nat → PortIn p) (s : State p) (j : Nat) : s.xfers <+: (driven f s j).xfers := by
  induction j with
  | zero => exact List.prefix_rfl
  | succ j ih => exact ih.trans (stepNext_xfers_prefix _)

/-- NODE keeps its words up to the step that ends the run: no step of it is a LOAD. -/
theorem Walks.nodeAt (h : Walks f s k) : (driven f s (k + 1)).nodeAt = s.nodeAt := by
  induction k with
  | zero =>
    obtain ⟨-, -, -, hop⟩ := State.offersStart_iff.1 h.start
    funext a
    exact stepNext_nodeAt_of_no_load (.inr (by rw [driven, hop]; simp)) a
  | succ k ih =>
    rw [← ih (h.mono k.le_succ)]
    funext a
    exact stepNext_nodeAt_of_no_load (.inl (h.run _ k.succ_pos le_rfl)) a

theorem driven_one (h : (s.withNow (f 0)).offersStart = true) :
    driven f s 1 = ((s.withNow (f 0)).accept .start).startRun.tick.withNow (f 1) := by
  rw [driven, driven, stepNext_of_offersStart h]

/-- START leaves ST and CODE as its result on the root. -/
theorem startResult_root (h : (s.withNow (f 0)).offersStart = true) :
    startResult (kind (s.nodeAt 0#p.idxW)) = ((driven f s 1).st, (driven f s 1).code) := by
  rw [driven_one h]
  exact (State.startRun_of_idle (s := (s.withNow (f 0)).accept .start) (State.offersStart_iff.1 h).1).2.symm

/-- After START the run stands where the loop of `Decode` begins. -/
theorem cursorOf_driven_one (h : (s.withNow (f 0)).offersStart = true) : cursorOf s (driven f s 1) = .start := by
  obtain ⟨hpos, -⟩ := State.startRun_of_idle (s := (s.withNow (f 0)).accept .start) (State.offersStart_iff.1 h).1
  rw [driven_one h, cursorOf_withNow, cursorOf_tick, cursorOf, hpos, xfersSince]
  simp [symsOf, bitsOf, Cursor.start]

theorem driven_one_pos (h : (s.withNow (f 0)).offersStart = true) : (driven f s 1).pos = 0#p.idxW :=
  congrArg Cursor.pos (cursorOf_driven_one h)

theorem driven_one_st (h : (s.withNow (f 0)).offersStart = true) :
    (driven f s 1).st = (startResult (kind (s.nodeAt 0#p.idxW))).1 :=
  (congrArg Prod.fst (startResult_root h)).symm

/-- START begins a run exactly on an INT root. -/
theorem driven_one_run_iff (h : (s.withNow (f 0)).offersStart = true) :
    (driven f s 1).st = .run ↔ kind (s.nodeAt 0#p.idxW) = .int := by
  rw [driven_one_st h]
  cases kind (s.nodeAt 0#p.idxW) <;> simp [startResult]

/-- On any other root START leaves the run over. -/
theorem driven_one_isOver (h : (s.withNow (f 0)).offersStart = true) (hroot : kind (s.nodeAt 0#p.idxW) ≠ .int) :
    (driven f s 1).isOver = true := by
  rw [State.isOver, driven_one_st h]
  cases hk : kind (s.nodeAt 0#p.idxW) with
  | int => exact absurd hk hroot
  | empty | leaf | rsvd3 => rfl

theorem Walks.root_int (h : Walks f s (k + 1)) : kind (s.nodeAt 0#p.idxW) = .int :=
  (driven_one_run_iff h.start).1 (h.run 1 one_pos (by omega))

/-- A step that does not lead to IDLE is no reset step (rule R220). -/
theorem rst_of_stepNext_st_ne_idle (h : (stepNext u).st ≠ .idle) : u.now.rst = false := by
  rcases stepNext_cases u with ⟨-, e⟩ | h' | h' | h' | h' | h' | h' | h' | h' | h'
  · simp [e] at h
  all_goals exact h'.1

/-- After START and after each walk step the run goes on or is over (rules R125, R171). -/
theorem Walks.run_or_over (h : Walks f s k) (hrst : 0 < k → (f k).rst = false) :
    (driven f s (k + 1)).st = .run ∨ (driven f s (k + 1)).isOver = true := by
  cases k with
  | zero =>
    by_cases hroot : kind (s.nodeAt 0#p.idxW) = .int
    · exact .inl ((driven_one_run_iff h.start).2 hroot)
    · exact .inr (driven_one_isOver h.start hroot)
  | succ k =>
    exact walkStep_run_or_over (by rw [driven_now]; exact hrst k.succ_pos) (h.run _ k.succ_pos le_rfl)

/-- Without a reset step the run is still in progress in cycle `k`, or is over before. -/
theorem walks_or_over (hstart : (s.withNow (f 0)).offersStart = true) (k : Nat)
    (hrst : ∀ j, 0 < j → j < k → Walks f s j → (f j).rst = false) :
    Walks f s k ∨ ∃ j < k, Walks f s j ∧ (driven f s (j + 1)).isOver = true := by
  induction k with
  | zero => exact .inl (walks_zero hstart)
  | succ k ih =>
    rcases ih fun j h0 hj => hrst j h0 (by omega) with h | ⟨j, hj, h⟩
    · rcases h.run_or_over fun h0 => hrst k h0 k.lt_succ_self h with hrun | hover
      · exact .inl (h.succ hrun)
      · exact .inr ⟨k, k.lt_succ_self, h, hover⟩
    · exact .inr ⟨j, by omega, h⟩

theorem Walks.runFinishes (h : Walks f s k) (hover : (driven f s (k + 1)).isOver = true) :
    RunFinishes f s (k + 1) (driven f s (k + 1)) :=
  runFinishes_iff.2 ⟨k.succ_pos, rfl, hover, fun i h0 hi => h.run i h0 (Nat.lt_succ_iff.1 hi)⟩

/-! ### The passes of a run (rules R175, R176) -/

/-- A run up to cycle `k` without a reset step, whose source is truthful about `B` in each of its cycles. -/
structure TruthfulRun (B : List Bool) (f : Nat → PortIn p) (s : State p) (k : Nat) : Prop extends Walks f s k where
  kept : ∀ j, 0 < j → j ≤ k → (f j).rst = false
  truthful : ∀ j, 0 < j → j ≤ k → (f j).peek.truthful (heldBits B s (driven f s j)) = true

theorem TruthfulRun.mono {j : Nat} (h : TruthfulRun B f s k) (hj : j ≤ k) : TruthfulRun B f s j :=
  ⟨h.toWalks.mono hj, fun i h0 hi => h.kept i h0 (hi.trans hj), fun i h0 hi => h.truthful i h0 (hi.trans hj)⟩

theorem State.not_isOver_of_run (h : u.st = .run) : u.isOver = false := by simp [State.isOver, h]

/-- In each cycle of a run after the first, the walk step stalls, or is a pass that goes on, or is one that returns. -/
theorem TruthfulRun.pass (h : TruthfulRun B f s (k + 1)) (hB : (cursorOf s (driven f s (k + 1))).taken ≤ B.length) :
    ((driven f s (k + 1)).stalls = true ∧ (driven f s (k + 1 + 1)).st = .run ∧
      cursorOf s (driven f s (k + 1 + 1)) = cursorOf s (driven f s (k + 1))) ∨
    ((driven f s (k + 1)).stalls = false ∧ (driven f s (k + 1 + 1)).st = .run ∧
      Goes s.nodeAt B (cursorOf s (driven f s (k + 1))) (cursorOf s (driven f s (k + 1 + 1)))) ∨
    ((driven f s (k + 1)).stalls = false ∧ (driven f s (k + 1 + 1)).isOver = true ∧
      Ends s.nodeAt B (cursorOf s (driven f s (k + 1))) (resultOf s (driven f s (k + 1 + 1)))) := by
  have hrun := h.run _ k.succ_pos le_rfl
  rw [← (h.toWalks.mono k.le_succ).nodeAt]
  rcases walkStep_pass (by rw [driven_now]; exact h.kept _ k.succ_pos le_rfl) hrun (driven_xfers_prefix f s _) hB
    (by rw [driven_now]; exact h.truthful _ k.succ_pos le_rfl) with ⟨hs, e⟩ | hgo | hend
  · exact .inl ⟨hs, by rw [driven, e]; exact hrun, by rw [driven, e]; rfl⟩
  · exact .inr (.inl hgo)
  · exact .inr (.inr hend)

/-- The cursor of a run is one that the loop of `Decode` reaches. -/
theorem TruthfulRun.reaches (h : TruthfulRun B f s (k + 1)) :
    Reaches s.nodeAt B .start (cursorOf s (driven f s (k + 1))) := by
  induction k with
  | zero => rw [cursorOf_driven_one h.start]
  | succ k ih =>
    have hreach := ih (h.mono (by omega))
    have hrun := h.run _ (by omega) le_rfl
    rcases (h.mono (by omega)).pass (hreach.taken_le (Nat.zero_le _)) with ⟨-, -, e⟩ | ⟨-, -, hgo⟩ | ⟨-, hover, -⟩
    · rw [e]; exact hreach
    · exact hreach.tail hgo
    · simp [State.not_isOver_of_run hrun] at hover

/-- A run that ends in its step `k` gives the result of `Decode`. -/
theorem TruthfulRun.runDecode_eq (h : TruthfulRun B f s k) (hover : (driven f s (k + 1)).isOver = true) :
    runDecode s.nodeAt B = some (resultOf s (driven f s (k + 1))) := by
  cases k with
  | zero =>
    have hroot : kind (s.nodeAt 0#p.idxW) ≠ .int := fun hk => by
      simp [State.not_isOver_of_run ((driven_one_run_iff h.start).2 hk)] at hover
    rw [runDecode_of_root_ne_int hroot, startResult_root h.start, resultOf_eq, cursorOf_driven_one h.start,
      driven_one_pos h.start]
    rfl
  | succ k =>
    refine Decodes.runDecode_eq ⟨_, h.reaches, ?_⟩ (h.toWalks.root_int)
    rcases h.pass (h.reaches.taken_le (Nat.zero_le _)) with ⟨-, hrun, -⟩ | ⟨-, hrun, -⟩ | ⟨-, -, hend⟩
    · simp [State.not_isOver_of_run hrun] at hover
    · simp [State.not_isOver_of_run hrun] at hover
    · exact hend

/-! ### Steps that do not stall (rules R175, R181) -/

/-- The steps 0 to `k` that do not stall, of a block whose ports carry `f`. -/
abbrev busy (f : Nat → PortIn p) (s : State p) (k : Nat) : Nat := busySteps (fun j => drive j f s) k

@[simp] theorem busy_zero (f : Nat → PortIn p) (s : State p) : busy f s 0 = 1 := rfl

theorem busy_succ (f : Nat → PortIn p) (s : State p) (k : Nat) :
    busy f s (k + 1) = busy f s k + if (driven f s (k + 1)).stalls then 0 else 1 := by
  unfold busy busySteps
  rw [List.range_succ, List.filter_append, List.length_append]
  cases hs : (driven f s (k + 1)).stalls <;> simp [drive_eq, hs]

/-- Each pass of a run leaves fewer passes, so its busy steps and the passes left are bounded together. -/
theorem TruthfulRun.busy_add_passesLeft_le (h : TruthfulRun B f s (k + 1)) :
    busy f s k + (cursorOf s (driven f s (k + 1))).passesLeft B ≤ 2 * B.length + 2 := by
  induction k with
  | zero =>
    rw [cursorOf_driven_one h.start, busy_zero, Cursor.passesLeft_start]
    omega
  | succ k ih =>
    have hk := h.mono (Nat.le_succ (k + 1))
    have hrun := h.run _ (by omega) le_rfl
    have := ih hk
    rcases hk.pass (hk.reaches.taken_le (Nat.zero_le _)) with ⟨hs, -, e⟩ | ⟨hs, -, hgo⟩ | ⟨-, hover, -⟩
    · simpa [busy_succ, hs, e] using this
    · have hbusy : busy f s (k + 1) = busy f s k + 1 := by simp [busy_succ, hs]
      have hleft := hgo.passesLeft_lt hk.toWalks.root_int
      omega
    · simp [State.not_isOver_of_run hrun] at hover

/-- A run has at most `2 * n + 2` busy steps: before its last step at least one pass is left. -/
theorem TruthfulRun.busy_le (h : TruthfulRun B f s k) : busy f s k ≤ 2 * B.length + 2 := by
  cases k with
  | zero => simp
  | succ k =>
    have := h.busy_add_passesLeft_le
    have := (cursorOf s (driven f s (k + 1))).one_le_passesLeft (B := B)
    rw [busy_succ]
    split <;> omega

theorem busy_mono (f : Nat → PortIn p) (s : State p) : Monotone (busy f s) :=
  monotone_nat_of_le_succ fun k => by rw [busy_succ]; omega

/-- Where no step of a run stalls, every step is busy. -/
theorem busy_of_no_stall (h : ∀ j, 0 < j → j ≤ k → (driven f s j).stalls = false) : busy f s k = k + 1 := by
  induction k with
  | zero => simp
  | succ k ih =>
    rw [busy_succ, ih fun j h0 hj => h j h0 (by omega), h _ k.succ_pos le_rfl]
    rfl

/-- Where a busy step always follows, there are as many busy steps as one likes. -/
theorem exists_le_busy (h : ∀ j, 0 < j → ∃ k, j ≤ k ∧ (driven f s k).stalls = false) (m : Nat) :
    ∃ k, m ≤ busy f s k := by
  induction m with
  | zero => exact ⟨0, Nat.zero_le _⟩
  | succ m ih =>
    obtain ⟨k, hk⟩ := ih
    obtain ⟨j, hj, hs⟩ := h (k + 1) k.succ_pos
    obtain ⟨i, rfl⟩ := Nat.exists_eq_add_one_of_ne_zero (show j ≠ 0 by omega)
    have hmono : busy f s k ≤ busy f s i := busy_mono f s (by omega)
    have hbusy : busy f s (i + 1) = busy f s i + 1 := by simp [busy_succ, hs]
    exact ⟨i + 1, by omega⟩

/-! ### Runs fed by a state's own inputs -/

/-- What the input ports carry in each cycle, from the state's own list. -/
def ownInputs (s : State p) (j : Nat) : PortIn p := (stepsFrom j s).now

theorem stepNext_withNow_now (s : State p) : stepNext (s.withNow s.now) = stepNext s :=
  stepNext_withNow rfl (fun _ => ⟨rfl, fun _ => rfl⟩) (fun _ _ => rfl) (fun _ _ => rfl)

theorem driven_ownInputs (s : State p) (j : Nat) :
    driven (ownInputs s) s j = (stepsFrom j s).withNow (ownInputs s j) := by
  induction j with
  | zero => rfl
  | succ j ih =>
    have hstep : stepNext ((stepsFrom j s).withNow (ownInputs s j)) = stepNext (stepsFrom j s) := stepNext_withNow_now _
    rw [driven, ih, hstep, stepsFrom_succ]

theorem RunInProgress.truthfulRun (h : RunInProgress B k s) : TruthfulRun B (ownInputs s) s k := by
  obtain ⟨hstart, hrun⟩ := h
  refine ⟨⟨hstart, fun j h0 hj => ?_⟩, fun j h0 hj => ?_, fun j h0 hj => ?_⟩ <;>
    obtain ⟨hst, hrst, htrue⟩ := hrun j _ h0 hj (run_eq_stepsFrom j s)
  · rw [driven_ownInputs]; exact hst
  · exact hrst
  · rw [driven_ownInputs]; exact htrue

theorem busySteps_run (s : State p) (k : Nat) :
    busySteps (fun j => (coreAt p).run j s) k = busy (ownInputs s) s k := by
  simp only [busy, busySteps, run_eq_stepsFrom, drive_eq, driven_ownInputs]
  rfl

/-- No walk step stalls while the source speaks and the sink is ready (rule R145). -/
theorem State.not_stalls_of_prompt (h : u.now.prompt = true) : u.stalls = false := by
  obtain ⟨hspeaks, hready⟩ : (u.now.bitValid = true ∨ u.now.bitEos = true) ∧ u.now.symReady = true := by
    simpa [PortIn.prompt] using h
  have hpeek := PortIn.peek_ne_wait.2 hspeaks
  cases hk : kind u.fetch <;> simp [State.stalls, hk, hpeek, hready]

end

end Sys2Proof.Machine

namespace Sys2Proof.Proofs

open Sys2Proof.Machine

/-- Settles O41: the run's cursor follows the passes of `Decode` up to the one that returns. -/
theorem finishedRunAgreesWithDecode : Obligations.FinishedRunAgreesWithDecode := by
  intro p s t B k hrun ht hover
  rw [run_eq_stepsFrom, Host.Outcome.next.injEq] at ht
  subst ht
  have h := hrun.truthfulRun.runDecode_eq
  rw [driven_ownInputs] at h
  exact h hover

/-- Settles O43: each busy step after START is a pass, and START leaves `2 * n + 1` of them. -/
theorem runHasBoundedBusySteps : Obligations.RunHasBoundedBusySteps := by
  intro p s B k hrun
  rw [busySteps_run]
  exact hrun.truthfulRun.busy_le

/-- Settles O44: `2 * n + 3` steps in RUN that never wait would be more busy steps than a run has. -/
theorem promptRunEnds : Obligations.PromptRunEnds := by
  intro p s B hstart h
  have hcycle {j k : Nat} (h0 : 0 < j) (hj : j ≤ 2 * B.length + 3) (hjk : j ≤ k) (hw : Walks (ownInputs s) s k) :=
    h j _ h0 hj (run_eq_stepsFrom j s) (by simpa [driven_ownInputs] using hw.run j h0 hjk)
  have hend := walks_or_over (f := ownInputs s) (s := s) hstart (2 * B.length + 3) fun j h0 hj hw =>
    (hcycle h0 (by omega) le_rfl hw).1
  rcases hend with hw | ⟨j, hj, -, hover⟩
  · have hrun : RunInProgress B (2 * B.length + 3) s := by
      refine ⟨hstart, fun j u h0 hj hu => ?_⟩
      rw [run_eq_stepsFrom, Host.Outcome.next.injEq] at hu
      subst hu
      obtain ⟨hrst, -, htrue⟩ := hcycle h0 hj hj hw
      exact ⟨by simpa [driven_ownInputs] using hw.run j h0 hj, hrst, htrue⟩
    have hbusy : busy (ownInputs s) s (2 * B.length + 3) = 2 * B.length + 3 + 1 := by
      refine busy_of_no_stall fun j h0 hj => State.not_stalls_of_prompt ?_
      obtain ⟨-, hprompt, -⟩ := hcycle h0 hj hj hw
      rw [driven_now]
      exact hprompt
    have := hrun.truthfulRun.busy_le
    omega
  · rw [driven_ownInputs] at hover
    exact ⟨j + 1, stepsFrom (j + 1) s, j.succ_pos, by omega, run_eq_stepsFrom _ s, hover⟩

end Sys2Proof.Proofs
end

section
/-! PROOF. Runs in an environment that goes on for ever: a fair one ends (rule R181), one that finishes was not
abandoned, and one on a proper tree whose source never reports exhaustion does not end. -/

namespace Sys2Proof.Machine

variable {p : Params} {f : Nat → PortIn p} {s u : State p} {B : List Bool} {k : Nat}

/-! ### Fair runs (rules R63, R67, R181) -/

theorem Walks.truthfulRun (h : Walks f s k) (hkept : NotAbandoned f s) (htrue : SourceTruthful B f s) :
    TruthfulRun B f s k :=
  ⟨h, fun j h0 hj => hkept j _ (h.inRun h0 hj), fun j h0 hj => htrue j _ (h.inRun h0 hj)⟩

/-- A step that delivers a symbol does not stall. -/
theorem State.not_stalls_of_putsSymbol (h : u.putsSymbol = true) : u.stalls = false := by
  obtain ⟨hv, hready⟩ : u.symValid = true ∧ u.now.symReady = true := by simpa [State.putsSymbol] using h
  obtain ⟨-, -, hk, hpeek⟩ := State.symValid_iff.1 hv
  simp [State.stalls, hk, hpeek, hready]

/-- In a fair run a step that does not stall always follows. -/
theorem exists_not_stalls (hwalks : ∀ k, Walks f s k) (hkept : NotAbandoned f s) (hspeaks : SourceSpeaks f s)
    (haccepts : SinkAccepts f s) (j : Nat) (h0 : 0 < j) : ∃ k, j ≤ k ∧ (driven f s k).stalls = false := by
  by_contra! hno
  have hstalls (i : Nat) (hi : j ≤ i) : (driven f s i).stalls = true := by simpa using hno i hi
  obtain ⟨k, hjk, hpeek⟩ := hspeaks j _ ((hwalks j).inRun h0 le_rfl)
  have hrun := (hwalks k).inRun (by omega : 0 < k) le_rfl
  have hs := hstalls k hjk
  cases hk : kind (driven f s k).fetch with
  | empty | rsvd3 | int => simp [State.stalls, hk, hpeek] at hs
  | leaf =>
    have hv : (driven f s k).symValid = true :=
      State.symValid_iff.2 ⟨by rw [driven_now]; exact hkept _ _ hrun, (hwalks k).run k (by omega) le_rfl, hk,
        by rw [driven_now]; exact hpeek⟩
    obtain ⟨m, hkm, hputs, -⟩ := haccepts.first hrun hv
    exact absurd (hstalls m (by omega)) (by simp [State.not_stalls_of_putsSymbol hputs])

/-- A fair run on a finite source ends after at most `2 * n + 2` busy steps. -/
theorem fairRun_finishes (hstart : (s.withNow (f 0)).offersStart = true) (htrue : SourceTruthful B f s)
    (hspeaks : SourceSpeaks f s) (haccepts : SinkAccepts f s) (hkept : NotAbandoned f s) :
    ∃ k t, RunFinishes f s (k + 1) t ∧ busy f s k ≤ 2 * B.length + 2 := by
  by_cases hwalks : ∀ k, Walks f s k
  · obtain ⟨k, hk⟩ := exists_le_busy (exists_not_stalls hwalks hkept hspeaks haccepts) (2 * B.length + 3)
    have := ((hwalks k).truthfulRun hkept htrue).busy_le
    omega
  · obtain ⟨m, hm⟩ := not_forall.1 hwalks
    have hend := walks_or_over hstart m fun j h0 _ h => hkept j _ (h.inRun h0 le_rfl)
    obtain ⟨k, -, hk, hover⟩ := hend.resolve_left hm
    exact ⟨k, _, hk.runFinishes hover, (hk.truthfulRun hkept htrue).busy_le⟩

/-- A run that finishes was not abandoned: a reset step would have led to IDLE. -/
theorem RunFinishes.walks {t : State p} (hstart : (s.withNow (f 0)).offersStart = true)
    (h : RunFinishes f s (k + 1) t) :
    Walks f s k ∧ driven f s (k + 1) = t ∧ t.isOver = true ∧ ∀ j, 0 < j → j ≤ k → (f j).rst = false := by
  obtain ⟨-, ht, hover, hrun⟩ := runFinishes_iff.1 h
  refine ⟨⟨hstart, fun j h0 hj => hrun j h0 (by omega)⟩, ht, hover, fun j h0 hj => ?_⟩
  rw [← driven_now f s j]
  refine rst_of_stepNext_st_ne_idle fun hidle => ?_
  have hidle' : (driven f s (j + 1)).st = .idle := hidle
  rcases Nat.lt_or_eq_of_le hj with hj | rfl
  · simp [hrun (j + 1) j.succ_pos (by omega)] at hidle'
  · rw [ht] at hidle'
    simp [State.isOver, hidle'] at hover

/-! ### Runs on a proper tree (rule R178) -/

/-- On a reachable word of a proper tree a walk step whose source does not report exhaustion stays in RUN, on a
reachable word. -/
theorem ProperTree.stepNext_run (htree : ProperTree u.nodeAt) (hrst : u.now.rst = false) (hst : u.st = .run)
    (hreach : Reachable u.nodeAt u.pos) (hpeek : u.now.peek ≠ .eos) :
    (stepNext u).st = .run ∧ Reachable u.nodeAt (stepNext u).pos := by
  have hkind := htree.kind_of_reachable hreach
  rcases walkStep_cases hrst hst with ⟨-, e⟩ | ⟨-, hk, -⟩ | ⟨-, hk, -⟩ | ⟨-, -, hp, -⟩ | ⟨b, -, hk, -, hc, -⟩ |
    ⟨b, -, hk, -, hc, e⟩ | ⟨b, -, -, -, e⟩ | ⟨-, -, hp, -⟩
  · rw [e]; exact ⟨hst, hreach⟩
  · simp [show kind (u.nodeAt u.pos) = _ from hk] at hkind
  · simp [show kind (u.nodeAt u.pos) = _ from hk] at hkind
  · exact absurd hp hpeek
  · exact absurd hc (htree.child_ne_zero hreach hk b)
  · rw [e]; exact ⟨hst, hreach.child hk hc⟩
  · rw [e]; exact ⟨hst, reachable_root _⟩
  · exact absurd hp hpeek

/-- On a proper tree a run whose source never reports exhaustion goes on, on reachable words. -/
theorem ProperTree.walks (htree : ProperTree s.nodeAt) (hstart : (s.withNow (f 0)).offersStart = true)
    (hkept : NotAbandoned f s) (hpeek : ∀ j u, InRun f s j u → (f j).peek ≠ .eos) (k : Nat) :
    Walks f s (k + 1) ∧ Reachable s.nodeAt (driven f s (k + 1)).pos := by
  induction k with
  | zero =>
    exact ⟨(walks_zero hstart).succ ((driven_one_run_iff hstart).2 htree.root),
      driven_one_pos hstart ▸ reachable_root _⟩
  | succ k ih =>
    obtain ⟨hwalks, hreach⟩ := ih
    have hrun := hwalks.inRun k.succ_pos le_rfl
    have hnode := (hwalks.mono k.le_succ).nodeAt
    rw [← hnode] at htree hreach ⊢
    obtain ⟨hst, hreach'⟩ := htree.stepNext_run (by rw [driven_now]; exact hkept _ _ hrun)
      (hwalks.run _ k.succ_pos le_rfl) hreach (by rw [driven_now]; exact hpeek _ _ hrun)
    exact ⟨hwalks.succ hst, hreach'⟩

end Sys2Proof.Machine

namespace Sys2Proof.Proofs

open Sys2Proof.Machine

/-- Settles O52: a run that went on for ever would have more busy steps than there can be. -/
theorem fairRunFinishes : Obligations.FairRunFinishes := by
  intro p f s B
  exact fairRun_finishes

/-- Settles O51: of the source's duties only that it is truthful is needed (assumption log 14). -/
theorem dutifulRunAgreesAndFinishes : Obligations.DutifulRunAgreesAndFinishes := by
  intro p f s B hstart hduties
  refine ⟨fun k t h => ?_, fun hspeaks haccepts hkept => ?_⟩
  · obtain ⟨k, rfl⟩ := Nat.exists_eq_add_one_of_ne_zero h.1.ne'
    obtain ⟨hwalks, rfl, hover, hkept⟩ := h.walks hstart
    have hrun : TruthfulRun B f s k :=
      ⟨hwalks, hkept, fun j h0 hj => hduties.truthful j _ (hwalks.inRun h0 hj)⟩
    exact hrun.runDecode_eq hover
  · obtain ⟨k, t, h, -⟩ := fairRun_finishes hstart hduties.truthful hspeaks haccepts hkept
    exact ⟨k + 1, t, h⟩

/-- Settles O56: on reachable words of a proper tree only exhaustion ends a run. -/
theorem runWithoutEosNeverEnds : Obligations.RunWithoutEosNeverEnds := by
  intro p f s hstart htree hkept hpeek j h0
  obtain ⟨k, rfl⟩ := Nat.exists_eq_add_one_of_ne_zero h0.ne'
  exact ⟨_, (htree.walks hstart hkept hpeek k).1.inRun h0 le_rfl⟩

end Sys2Proof.Proofs
end

section
/-! PROOF. A run that waits for ever, and the block after a run. -/

namespace Sys2Proof.Machine

variable {p : Params} {u : State p}

/-! ### A run that waits for ever (rule R181) -/

/-- In a cycle in which the ports carry `x` the walker at `u` has to wait, and there is no reset. -/
def State.WaitsOn (u : State p) (x : PortIn p) : Prop :=
  x.rst = false ∧ (x.peek = .wait ∨ (kind u.fetch = .leaf ∧ x.symReady = false))

theorem State.waitsOn_idle (u : State p) : u.WaitsOn .idle := ⟨rfl, .inl rfl⟩

theorem State.stalls_of_waitsOn (hk : kind u.fetch = .int ∨ kind u.fetch = .leaf) (h : u.WaitsOn u.now) :
    u.stalls = true := by
  obtain ⟨-, hpeek | ⟨hleaf, hready⟩⟩ := h
  · rcases hk with hk | hk <;> simp [State.stalls, hk, hpeek]
  · simp [State.stalls, hleaf, hready]

theorem State.now_waitsOn (h : ∀ x ∈ u.inputs, u.WaitsOn x) : u.WaitsOn u.now := by
  unfold State.now
  cases hi : u.inputs with
  | nil => exact u.waitsOn_idle
  | cons x xs => exact h x (by simp [hi])

/-- A run that always waits only passes the clock edges. -/
theorem stepsFrom_of_waits (hst : u.st = .run) (hk : kind u.fetch = .int ∨ kind u.fetch = .leaf)
    (h : ∀ x ∈ u.inputs, u.WaitsOn x) (k : Nat) : stepsFrom k u = { u with inputs := u.inputs.drop k } := by
  induction k generalizing u with
  | zero => rfl
  | succ k ih =>
    have hwait := State.now_waitsOn h
    rw [stepsFrom, stepNext_of_stalls hwait.1 hst (State.stalls_of_waitsOn hk hwait),
      ih (u := u.tick) hst hk fun x hx => h x (List.mem_of_mem_tail hx), State.tick_inputs, List.drop_tail]
    rfl

/-! ### After a run (rules R171, R200) -/

theorem stepNext_of_rst (h : u.now.rst = true) : stepNext u = u.toIdle.tick := by simp [stepNext, h]

/-- Once a run is over a step holds ST, CODE and POS, or it is a reset step or accepts CLEAR and leads to IDLE. -/
theorem stepNext_of_over (h : u.isOver = true) :
    if u.now.rst = true ∨ (u.now.cmdValid = true ∧ op u.now.cmdWord = .clear) then
      (stepNext u).st = .idle ∧ (stepNext u).code = .ok ∧ (stepNext u).pos = 0#p.idxW
    else (stepNext u).st = u.st ∧ (stepNext u).code = u.code ∧ (stepNext u).pos = u.pos := by
  have hrun : u.st ≠ .run := fun e => by simp [State.isOver, e] at h
  have hidle : (u.accept .start).st ≠ .idle := fun e => by simp [State.isOver, show u.st = .idle from e] at h
  rcases stepNext_cases u with ⟨hrst, e⟩ | ⟨-, hst, -⟩ | ⟨-, hst, -⟩ | ⟨-, hst, -⟩ | ⟨-, hst, -⟩ | ⟨hrst, -, hv, e⟩ |
    ⟨hrst, -, hv, hop, e⟩ | ⟨hrst, -, hv, hop, e⟩ | ⟨hrst, -, hv, hop, e⟩ | ⟨hrst, -, hv, hop, e⟩
  · simp [e, hrst]
  iterate 4 exact absurd hst hrun
  · simp [e, hrst, hv]
  · simp [e, hrst, hop]
  · simp [e, hrst, hop]
  · simp [e, hrst, hop, State.startRun_of_not_idle hidle]
  · simp [e, hrst, hv, hop]

end Sys2Proof.Machine

namespace Sys2Proof.Proofs

open Sys2Proof.Machine

/-- Settles O53: each step stalls. -/
theorem unfairRunStaysInRun : Obligations.UnfairRunStaysInRun := by
  intro p s hst hk h k
  refine ⟨stepsFrom k s, run_eq_stepsFrom k s, ?_⟩
  rw [stepsFrom_of_waits hst hk h]
  refine ⟨hst, rfl, rfl, rfl, rfl, fun x hx => ⟨_, stepAt_eq _, ?_⟩⟩
  rw [stepNext_of_rst (u := State.withNow _ x) hx]
  rfl

/-- Settles O31, by the cases of a step outside RUN. -/
theorem resultHeldUntilClearOrReset : Obligations.ResultHeldUntilClearOrReset := by
  intro s t hover hstep
  obtain rfl := step_eq_next_iff.1 hstep
  exact stepNext_of_over hover

end Sys2Proof.Proofs
end

section
/-! PROOF. The ways a walk step faults, and what such a step leaves unchanged. -/

namespace Sys2Proof.Machine

variable {p : Params} {u : State p}

/-- The walk steps that raise a fault (rule R190): at EMPTY, at RSVD3, and at INT on exhaustion or on a bit that selects
an absent child. A reset step raises none. -/
theorem walkStep_fault_cases (hst : u.st = .run) (hfault : (stepNext u).st = .fault) :
    stepNext u = (u.raiseFault .decodeNoChild).tick ∨ stepNext u = (u.raiseFault .badNode).tick ∨
    stepNext u = (u.raiseFault .decodeTruncated).tick ∨
    ∃ b, kind u.fetch = .int ∧ childIndex (left u.fetch) (right u.fetch) b = 0#_ ∧
      stepNext u = ((u.bitTake b).raiseFault .decodeNoChild).tick := by
  have hrst : u.now.rst = false := by
    by_contra hrst
    simp [stepNext_of_rst (Bool.eq_true_of_not_eq_false hrst)] at hfault
  rcases walkStep_cases hrst hst with ⟨-, e⟩ | ⟨-, -, e⟩ | ⟨-, -, e⟩ | ⟨-, -, -, e⟩ | ⟨b, -, hk, -, hc, e⟩ |
    ⟨b, -, -, -, -, e⟩ | ⟨b, -, -, -, e⟩ | ⟨-, -, -, e⟩
  · simp [e, hst] at hfault
  · exact .inl e
  · exact .inr (.inl e)
  · exact .inr (.inr (.inl e))
  · exact .inr (.inr (.inr ⟨b, hk, hc, e⟩))
  · simp [e, hst] at hfault
  · simp [e, hst] at hfault
  · simp [e] at hfault

end Sys2Proof.Machine

namespace Sys2Proof.Proofs

open Sys2Proof.Machine

/-- Settles O32: of the walk steps that fault only the one at an absent child takes a bit. -/
theorem walkFaultsArePrecise : Obligations.WalkFaultsArePrecise := by
  intro s t hst hstep hfault
  obtain rfl := step_eq_next_iff.1 hstep
  rcases walkStep_fault_cases hst hfault with e | e | e | ⟨b, hk, hc, e⟩ <;> rw [e]
  · exact ⟨rfl, rfl, .inl ⟨rfl, .inr (.inl rfl)⟩⟩
  · exact ⟨rfl, rfl, .inl ⟨rfl, .inr (.inr rfl)⟩⟩
  · exact ⟨rfl, rfl, .inl ⟨rfl, .inl rfl⟩⟩
  · exact ⟨rfl, rfl, .inr ⟨rfl, hk, b, rfl, hc⟩⟩

end Sys2Proof.Proofs
end

section
/-! PROOF. The word of a canonical node memory at each index, and that these words determine the memory (rule R225,
assumption log 9). -/

namespace Sys2Proof.Machine

variable {p : Params} {m m' : Memory p} {lo a c : Nat} {w : NodeWord p}

theorem Memory.lookup_cons : Memory.lookup ((a, w) :: m) c = if c = a then some w else m.lookup c := rfl

theorem Memory.sortedFrom_cons : Memory.sortedFrom lo ((a, w) :: m) = true ↔
    lo ≤ a ∧ a < 2 ^ p.idxW ∧ Memory.sortedFrom (a + 1) m = true := by
  simp [Memory.sortedFrom, and_assoc]

/-- A memory sorted from `lo` lists no index below `lo`. -/
theorem Memory.lookup_of_lt (h : Memory.sortedFrom lo m = true) (hc : c < lo) : m.lookup c = none := by
  induction m generalizing lo with
  | nil => rfl
  | cons e m ih =>
    obtain ⟨a, w⟩ := e
    obtain ⟨hlo, -, hm⟩ := Memory.sortedFrom_cons.1 h
    rw [Memory.lookup_cons, if_neg (by omega), ih hm (by omega)]

/-- The lowest listed index is the lowest index with a word. -/
theorem Memory.le_of_lookup_cons {v : NodeWord p} (h : Memory.sortedFrom lo ((a, w) :: m) = true)
    (hc : Memory.lookup ((a, w) :: m) c = some v) : a ≤ c := by
  by_contra hlt
  obtain ⟨-, ha, hm⟩ := Memory.sortedFrom_cons.1 h
  have hlow : Memory.sortedFrom a ((a, w) :: m) = true := Memory.sortedFrom_cons.2 ⟨le_rfl, ha, hm⟩
  simp [Memory.lookup_of_lt hlow (not_le.1 hlt)] at hc

/-- Sorted memories with the same words are the same list: their lowest entries agree, and so do the rests. -/
theorem Memory.ext_of_sortedFrom (h : Memory.sortedFrom lo m = true) (h' : Memory.sortedFrom lo m' = true)
    (heq : ∀ c, m.lookup c = m'.lookup c) : m = m' := by
  induction m generalizing lo m' with
  | nil =>
    cases m' with
    | nil => rfl
    | cons e m' => simpa [Memory.lookup] using heq e.1
  | cons e m ih =>
    obtain ⟨a, w⟩ := e
    have hw : Memory.lookup ((a, w) :: m) a = some w := if_pos rfl
    cases m' with
    | nil => simpa [hw] using heq a
    | cons e' m' =>
      obtain ⟨b, v⟩ := e'
      have hv : Memory.lookup ((b, v) :: m') b = some v := if_pos rfl
      obtain rfl : a = b :=
        le_antisymm (Memory.le_of_lookup_cons h ((heq b).trans hv))
          (Memory.le_of_lookup_cons h' ((heq a).symm.trans hw))
      obtain rfl : w = v := Option.some.inj (hw.symm.trans ((heq a).trans hv))
      obtain ⟨-, -, hm⟩ := Memory.sortedFrom_cons.1 h
      obtain ⟨-, -, hm'⟩ := Memory.sortedFrom_cons.1 h'
      refine congrArg _ (ih hm hm' fun c => ?_)
      by_cases hc : c = a
      · rw [hc, Memory.lookup_of_lt hm a.lt_succ_self, Memory.lookup_of_lt hm' a.lt_succ_self]
      · simpa [Memory.lookup_cons, hc] using heq c

/-- Canonical memories with the same words are equal. -/
theorem Memory.ext_of_wf (h : m.wf = true) (h' : m'.wf = true) (heq : ∀ c, m.lookup c = m'.lookup c) : m = m' :=
  Memory.ext_of_sortedFrom h h' heq

theorem Memory.write_wf (h : m.wf = true) (i : Index p) (v : NodeWord p) : (m.write i.toNat v).wf = true :=
  Memory.sortedFrom_write v h (Nat.zero_le _) i.isLt

theorem Memory.write_comm (h : m.wf = true) {i j : Index p} (hij : i ≠ j) (v w : NodeWord p) :
    (m.write i.toNat v).write j.toNat w = (m.write j.toNat w).write i.toNat v := by
  refine Memory.ext_of_wf (Memory.write_wf (Memory.write_wf h i v) j w) (Memory.write_wf (Memory.write_wf h j w) i v)
    fun c => ?_
  have hne : i.toNat ≠ j.toNat := fun e => hij (BitVec.eq_of_toNat_eq e)
  simp only [Memory.lookup_write]
  by_cases hc : c = j.toNat
  · simp [hc, hne.symm]
  · simp [hc]

theorem Memory.write_write_self (h : m.wf = true) (i : Index p) (v w : NodeWord p) :
    (m.write i.toNat v).write i.toNat w = m.write i.toNat w := by
  refine Memory.ext_of_wf (Memory.write_wf (Memory.write_wf h i v) i w) (Memory.write_wf h i w) fun c => ?_
  by_cases hc : c = i.toNat <;> simp [Memory.lookup_write, hc]

end Sys2Proof.Machine

namespace Sys2Proof.Proofs

open Sys2Proof.Machine

/-- Settles O38: both write laws compare the words index by index. -/
theorem nodeContentsDetermineTheMemory : Obligations.NodeContentsDetermineTheMemory := by
  intro p m m' h h'
  exact ⟨fun _ _ v w hij => Memory.write_comm h hij v w, Memory.write_write_self h, Memory.ext_of_wf h h'⟩

end Sys2Proof.Proofs
end

section
/-! PROOF. The reset step (rule R220). -/

namespace Sys2Proof.Machine

variable {p : Params} {s : State p}

/-- During reset the three handshake outputs are 0 (rule R29). -/
theorem State.handshakes_of_rst (h : s.now.rst = true) :
    s.cmdReady = false ∧ s.bitReady = false ∧ s.symValid = false := by
  simp [State.cmdReady, State.bitReady, State.symValid, h]

end Sys2Proof.Machine

namespace Sys2Proof.Proofs

open Sys2Proof.Machine

/-- Settles O9: a reset step is the return to IDLE past the clock edge. -/
theorem resetStepSetsTheRegisters : Obligations.ResetStepSetsTheRegisters := by
  intro s hrst
  refine ⟨State.handshakes_of_rst hrst, s.toIdle.tick, ?_, rfl, rfl, rfl, fun _ => rfl, rfl, rfl, rfl⟩
  rw [step_eq, stepNext_of_rst hrst]

end Sys2Proof.Proofs
end

section
/-! PROOF. Every step keeps NODE in the canonical form: only LOAD writes it (rules R24, R124, assumption log 9). -/

namespace Sys2Proof.Machine

variable {p : Params} {s : State p}

/-- The step of an accepted LOAD writes one word in its place; every other step leaves NODE alone. -/
theorem stepNext_wf (h : s.node.wf = true) : (stepNext s).node.wf = true := by
  rcases stepNext_cases s with ⟨-, e⟩ | ⟨-, -, -, e⟩ | ⟨-, -, -, e⟩ | ⟨-, -, -, e⟩ | ⟨-, -, -, e⟩ | ⟨-, -, -, e⟩ |
    ⟨-, -, -, -, e⟩ | ⟨-, -, -, -, e⟩ | ⟨-, -, -, -, e⟩ | ⟨-, -, -, -, e⟩ <;> rw [e, State.tick_node]
  -- the accepted LOAD is the eighth of the ten cases
  pick_goal 8
  · exact State.setNode_wf h (addr s.now.cmdWord) (data s.now.cmdWord)
  all_goals simpa using h

end Sys2Proof.Machine

namespace Sys2Proof.Proofs

open Sys2Proof.Machine

/-- Settles O37: only the step of an accepted LOAD writes NODE, and a write keeps the canonical form. -/
theorem stepKeepsNodeCanonical : Obligations.StepKeepsNodeCanonical := by
  intro s t h hstep
  rw [← step_eq_next_iff.1 hstep]
  exact stepNext_wf h

end Sys2Proof.Proofs
end
